-- ==== Sys2Proof/Word.lean ====
section
/-! DEFINITION. The widths of the block: words, bytes, the control word and the operand bus (00_scope.md R8, R9, R10). -/

namespace Sys2Proof

/-- A lane, `pending`, a message word, a digest: LANE_W = 64 unsigned bits (R8, R10). -/
abbrev Word := BitVec 64

/-- One byte of the seed or of the message stream (R31). -/
abbrev Byte := BitVec 8

/-- The control word `ctl`, CTL_W = 6 bits (R8, R51). -/
abbrev Ctl := BitVec 6

/-- The operand bus `wdata`, WDATA_W = 128 bits, sixteen byte lanes (R8, R37). -/
abbrev Wide := BitVec 128

end Sys2Proof
end

