-- ==== Sys2Proof/Syntax.lean ====
section
/-! DEFINITION. One transfer on the command port, and the three commands (30_encoding.md R51 to R54). -/

namespace Sys2Proof

/-- What is sampled in the accepting cycle: the control word and the operand (R50). The command IS this pair of values. -/
structure Transfer where
  ctl   : Ctl
  wdata : Wide
  deriving DecidableEq, Repr

/-- The commands (R52). The opcode table's two APPEND rows are one command, which R55 says in as many words (log 14).
APPEND carries the whole operand bus: which lanes count is decided by the engine's mask (R58, R68), not by the syntax
(log 15). FINALIZE has no operand (R54). -/
inductive Instr where
  /-- `init(seed)`: the 128 seed bits (R59). -/
  | init (seed : Wide)
  /-- `append`: a beat of `nbytes` bytes, 0 to 8, on the low lanes of `wdata` (R53, R54). -/
  | append (nbytes : BitVec 4) (wdata : Wide)
  /-- `finalize`. -/
  | finalize
  deriving DecidableEq, Repr

end Sys2Proof
end

