-- ==== Sys2Proof/WellFormed.lean ====
section
/-! DEFINITION. Which commands the encoding can carry: for APPEND the byte count is 0 to 8 (30_encoding.md R53). -/

namespace Sys2Proof

/-- `nbytes` of an APPEND is 0 to 8; the values 9 to 15 are reserved (R53). INIT takes every 128-bit seed (R66), FINALIZE
has no operand. -/
def Instr.wf : Instr → Bool
  | .init _ => true
  | .append nbytes _ => decide (nbytes.toNat ≤ 8)
  | .finalize => true

end Sys2Proof
end

