-- ==== Sys2Proof/Decode.lean ====
section
/-! DEFINITION. Decoding a transfer (total, rejecting by name), the encoder, and the reading of an opcode-table word as a
transfer (30_encoding.md R51 to R60). -/

namespace Sys2Proof

/-- Why a control word is no command: the three encoding reasons of 00_scope.md R13. -/
inductive Reserved where
  /-- `ctl[5:4] = 00`. -/
  | op
  /-- APPEND with `ctl[3:0] > 8`. -/
  | nbytes
  /-- INIT or FINALIZE with `ctl[3:0] ≠ 0`. -/
  | field
  deriving DecidableEq, Repr

/-- The field `op = ctl[5:4]` (R51). -/
def ctlOp (ctl : Ctl) : BitVec 2 := ctl.extractLsb' 4 2

/-- The field `nbytes = ctl[3:0]` (R51). -/
def ctlNbytes (ctl : Ctl) : BitVec 4 := ctl.extractLsb' 0 4

/-- Decoding (R55): a total function of `ctl`; the operand is carried along and decides nothing. -/
def decode (c : Transfer) : Except Reserved Instr :=
  if ctlOp c.ctl = 0b01#2 ∧ ctlNbytes c.ctl = 0#4 then .ok (.init c.wdata)
  else if ctlOp c.ctl = 0b10#2 ∧ (ctlNbytes c.ctl).toNat ≤ 8 then .ok (.append (ctlNbytes c.ctl) c.wdata)
  else if ctlOp c.ctl = 0b11#2 ∧ ctlNbytes c.ctl = 0#4 then .ok .finalize
  else if ctlOp c.ctl = 0b00#2 then .error .op
  else if ctlOp c.ctl = 0b10#2 then .error .nbytes
  else .error .field

/-- The transfer of a command (R55 for `ctl`, R54 for the operand). FINALIZE ignores `wdata`; the encoder drives zeros,
as the notation of R60 does. -/
def encode : Instr → Transfer
  | .init seed => ⟨0x10#6, seed⟩
  | .append nbytes wdata => ⟨0b10#2 ++ nbytes, wdata⟩
  | .finalize => ⟨0x30#6, 0#128⟩

/-- DESIGN CHOICE (safe; log 11). A number read as a transfer: the control word in bits 5 to 0 of the first byte, whose bits
7 and 6 do not exist and must be 0, then the sixteen byte lanes of `wdata`, lane `i` at bits 8i+15 to 8i+8. Only the low
`nbits` bits count, every bit above them is 0. -/
def transferOfTableWord (nbits w : Nat) : Option Transfer :=
  let v := w % 2 ^ nbits
  if v / 64 % 4 = 0 ∧ v < 2 ^ 136 then some ⟨BitVec.ofNat 6 v, BitVec.ofNat 128 (v / 256)⟩ else none

/-- The command the decoder reads from an instruction whose bits, numbered as the opcode table numbers them, are `w`. -/
def decodeTableWord (nbits w : Nat) : Option Instr :=
  match transferOfTableWord nbits w with
  | some c =>
    match decode c with
    | .ok i => some i
    | .error _ => none
  | none => none

/-- One row of the opcode table in match and mask form (R55). -/
structure TableRow where
  mtch : Ctl
  mask : Ctl
  deriving DecidableEq, Repr

/-- A control word selects a row when `ctl & mask = match` (R55). -/
def TableRow.selects (r : TableRow) (ctl : Ctl) : Bool := ctl &&& r.mask == r.mtch

/-- The four rows of the opcode table, in its order (R55). -/
def opcodeRows : List TableRow :=
  [⟨0x10#6, 0x3f#6⟩, ⟨0x20#6, 0x38#6⟩, ⟨0x28#6, 0x3f#6⟩, ⟨0x30#6, 0x3f#6⟩]

end Sys2Proof
end

