-- ==== Sys2Proof/Config.lean ====
section
/-! DEFINITION. What the spec leaves open: the free values, which have no body so that no proof can know one, and the
open latencies of 00_scope.md R8. The parameters R8 fixes are the widths of Word.lean and the constants of
Machine/Round.lean, Machine/Init.lean and Machine/Finalize.lean. -/

namespace Sys2Proof.Config

/-- DESIGN CHOICE (safe: nothing can be proved about a value). The free 64-bit values: what a register holds where the
spec calls its contents unspecified (10_state.md R24, R28; 60_exceptions.md R100; 70_reset_and_hazards.md R110). The
argument is the number of free values drawn before it, so that two draws need not agree. Log 2, 3, 4, 5. -/
opaque unspecWord : Nat → Word

/-- DESIGN CHOICE (safe). The free choice of a phase after a refused command at the clock level, where R100 leaves the
phase unspecified; the three values stand for the three phases. Log 5. -/
opaque unspecPhase : Nat → Fin 3

/-- The open latencies `LAT_INIT`, `LAT_APPEND`, `LAT_FINALIZE` (00_scope.md R8, 70_reset_and_hazards.md R120), each
given as the cycles BEYOND THE FIRST, so that every latency is finite and at least 1 whatever the numbers. A beat that
completes a word may take another time than one that does not, and a refused command completes too (R120). The
clock-level machine takes the record as an argument; no rule's result depends on it. -/
structure Latency where
  init       : Nat
  appendHold : Nat
  appendFire : Nat
  finalize   : Nat
  refused    : Nat
  deriving DecidableEq, Repr

end Sys2Proof.Config
end

