-- ==== Sys2Proof/Machine/State.lean ====
section
/-! DEFINITION. The state of the block as plain data (10_state.md section 1), the reasons a command is refused, and the
state after reset. -/

namespace Sys2Proof.Machine

/-- The lifecycle register (10_state.md R21). Its encoding is not visible, so it is an enumeration. -/
inductive Phase where
  /-- No INIT since reset. -/
  | uninit
  /-- INIT done, digest not yet taken. -/
  | absorb
  /-- FINALIZE done. -/
  | done
  deriving DecidableEq, Repr

/-- The four lanes (R16): four distinct registers, not interchangeable. -/
@[ext]
structure Lanes where
  v0 : Word
  v1 : Word
  v2 : Word
  v3 : Word
  deriving DecidableEq, Repr

/-- The source's HashState: the six data registers of the block and no others (R15). -/
@[ext]
structure HashState extends Lanes where
  /-- The accumulator of 0 to 7 bytes not yet absorbed (R17). -/
  pending     : Word
  /-- The byte counter, LEN_W = 64 bits, wrapping (R18). -/
  totalLength : Word
  deriving DecidableEq, Repr

/-- The input pins at one rising edge of `clk` (30_encoding.md R48). -/
structure Pins where
  rst      : Bool
  cmdValid : Bool
  ctl      : Ctl
  wdata    : Wide
  deriving DecidableEq, Repr

/-- The pair of values that is the command if this cycle accepts one (R50). -/
def Pins.transfer (p : Pins) : Transfer := ⟨p.ctl, p.wdata⟩

/-- Everything the spec gives the block (10_state.md section 1), and two fields of the model's own. -/
@[ext]
structure State extends HashState where
  /-- The lifecycle register (R21). -/
  phase  : Phase
  /-- The result register (R24). -/
  digest : Word
  /-- The hidden bit `busy` (R26): `none` is 0, `some c` is 1 while `c` is in progress (log 12). -/
  busy   : Option Transfer
  /-- MODEL'S OWN: how many free values have been drawn (log 6). -/
  draws  : Nat
  /-- MODEL'S OWN: what the host will drive, one sample for each clock edge at which the engine is ready (log 7). -/
  hostCycles : List Pins
  deriving DecidableEq, Repr

/-- There is no fault: the block raises no exception, has no trap and no stuck state (60_exceptions.md R96, R104;
00_scope.md R13). The type is empty, so that no step can answer one. -/
inductive Fault where
  deriving DecidableEq, Repr

/-- The reasons a command is refused (00_scope.md R13, a closed list of five), and the name the host reserves. A refusal
gives no next state, so it is safe: nothing can be proved about a run that contains one (60_exceptions.md R100). -/
inductive Refusal where
  /-- No meaning in this model yet; raised by `exec`'s refused arms, of which there are none. Safe. -/
  | notModelled (mnemonic : String)
  /-- APPEND or FINALIZE in UNINIT (R99); raised by their meanings. Safe. -/
  | uninitialised
  /-- APPEND or FINALIZE in DONE (R99); raised by their meanings. Safe. -/
  | finalized
  /-- `ctl[5:4] = 00` (R101); raised by the step when the decoder rejects the control word. Safe. -/
  | reservedOp
  /-- APPEND with a byte count above 8 (R101); raised by the step, and by APPEND's meaning on such a term. Safe. -/
  | reservedNbytes
  /-- INIT or FINALIZE with `ctl[3:0] ≠ 0` (R101); raised by the step. Safe. -/
  | reservedField
  deriving DecidableEq, Repr

/-- What a command answers (00_scope.md R13). -/
abbrev Result := Host.Outcome State Fault Refusal

/-- The block right after reset (10_state.md R28, 70_reset_and_hazards.md R110, R111): UNINIT, not busy. DESIGN CHOICE: each
register the spec leaves unspecified holds a free value of its own, which no proof can know (log 2). -/
def State.reset : State where
  v0 := Config.unspecWord 0
  v1 := Config.unspecWord 1
  v2 := Config.unspecWord 2
  v3 := Config.unspecWord 3
  pending := Config.unspecWord 4
  totalLength := Config.unspecWord 5
  phase := .uninit
  digest := Config.unspecWord 6
  busy := none
  draws := 7
  hostCycles := []

end Sys2Proof.Machine
end

