-- ==== Sys2Proof/Machine/Flags.lean ====
section
/-! DEFINITION. The two status outputs and the digest output (10_state.md R25). There are no condition codes: no operation
sets a flag (R25, 42_mixing_round.md R85). -/

namespace Sys2Proof.Machine

/-- `cmd_ready`: `busy = 0` (R25). -/
def State.cmdReady (s : State) : Bool := s.busy.isNone

/-- `digest_valid`: `phase = DONE` and `busy = 0` (R25). -/
def State.digestValid (s : State) : Bool := decide (s.phase = .done) && s.busy.isNone

/-- The output `digest`. It is meaningful only while `digest_valid = 1` (R25, R118); outside that the model gives it no
value (R24). DESIGN CHOICE (safe; log 8): an absent value is `none`. -/
def State.digestOut (s : State) : Option Word := if s.digestValid then some s.digest else none

/-- The output ports of the block and no others (30_encoding.md R48). -/
structure Outputs where
  cmdReady    : Bool
  digestValid : Bool
  digest      : Option Word
  deriving DecidableEq, Repr

/-- What the host can sample; sampling changes nothing (20_memory.md R42). -/
def State.outputs (s : State) : Outputs := ⟨s.cmdReady, s.digestValid, s.digestOut⟩

end Sys2Proof.Machine
end

