-- ==== Sys2Proof/Machine/Operands.lean ====
section
/-! DEFINITION. Operand assembly: little-endian packing, the seed halves, the masked beat, the shifter, the merge, and the
pending-buffer state machine's two outputs (20_memory.md R34 to R37; 30_encoding.md R58, R59; 41_append.md R68 to R73). -/

namespace Sys2Proof.Machine

/-- `le64(b0, ..., b7)` (R35): the first byte least significant. -/
def le64 (b0 b1 b2 b3 b4 b5 b6 b7 : Byte) : Word :=
  b0.setWidth 64 ||| (b1.setWidth 64 <<< 8) ||| (b2.setWidth 64 <<< 16) ||| (b3.setWidth 64 <<< 24) |||
    (b4.setWidth 64 <<< 32) ||| (b5.setWidth 64 <<< 40) ||| (b6.setWidth 64 <<< 48) ||| (b7.setWidth 64 <<< 56)

/-- Byte lane `i` of the operand bus, `wdata[8i+7:8i]` (R37). -/
def byteLane (wdata : Wide) (i : Nat) : Byte := wdata.extractLsb' (8 * i) 8

/-- `k0 = wdata[63:0]` (R59). -/
def seedK0 (seed : Wide) : Word := seed.extractLsb' 0 64

/-- `k1 = wdata[127:64]` (R59). -/
def seedK1 (seed : Wide) : Word := seed.extractLsb' 64 64

/-- `bytemask(n) = (1 << 8n) - 1` taken to 64 bits (R58). -/
def bytemask (n : Nat) : Word := (1#64 <<< (8 * n)) - 1#64

/-- The packer (R68): the low 64 bits of the operand with everything above byte `n - 1` forced to zero. -/
def beat (n : Nat) (wdata : Wide) : Word := wdata.extractLsb' 0 64 &&& bytemask n

/-- `k = totalLength[2:0]`, the number of bytes `pending` holds (R69). -/
def fill (totalLength : Word) : Nat := (totalLength.extractLsb' 0 3).toNat

/-- The shifter (R69): the beat moved up by `k` bytes in a 128-bit field. -/
def shifted (k : Nat) (bt : Word) : Wide := bt.setWidth 128 <<< (8 * k)

/-- `lo = pending | sh[63:0]` (R70). -/
def mergeLo (pending : Word) (sh : Wide) : Word := pending ||| sh.extractLsb' 0 64

/-- `hi = sh[127:64]` (R70). -/
def mergeHi (sh : Wide) : Word := sh.extractLsb' 64 64

/-- `fire`: eight bytes are present and a word is absorbed (R70, R73). -/
def fires (k n : Nat) : Bool := decide (8 ≤ k + n)

/-- The next fill level `k' = (k + n) mod 8` (R73). -/
def nextFill (k n : Nat) : Nat := (k + n) % 8

end Sys2Proof.Machine
end

