-- ==== Sys2Proof/Machine/Round.lean ====
section
/-! DEFINITION. The round-mixing combinatorics: one mixing round, the round unit, and the operations it is built from
(42_mixing_round.md). -/

namespace Sys2Proof.Machine

/-- `a +64 b` (R85): addition modulo 2^64, the carry out of bit 63 discarded. -/
def add64 (a b : Word) : Word := BitVec.ofNat 64 (a.toNat + b.toNat)

/-- `rotl(x, b)` for `0 < b < 64` (R86): `(x << b) | (x >> (64 - b))` taken to 64 bits. -/
def rotl (x : Word) (b : Nat) : Word := (x <<< b) ||| (x >>> (64 - b))

/-- One mixing round (R80): fourteen operations, each on the values the ones before it left. -/
def sipRound (l : Lanes) : Lanes :=
  let v0 := l.v0
  let v1 := l.v1
  let v2 := l.v2
  let v3 := l.v3
  let v0 := add64 v0 v1
  let v1 := rotl v1 13
  let v1 := v1 ^^^ v0
  let v0 := rotl v0 32
  let v2 := add64 v2 v3
  let v3 := rotl v3 16
  let v3 := v3 ^^^ v2
  let v0 := add64 v0 v3
  let v3 := rotl v3 21
  let v3 := v3 ^^^ v0
  let v2 := add64 v2 v1
  let v1 := rotl v1 17
  let v1 := v1 ^^^ v2
  let v2 := rotl v2 32
  ⟨v0, v1, v2, v3⟩

/-- `Rounds(n, v)` (R83): the round `n` times, the output of one being the input of the next. -/
def rounds : Nat → Lanes → Lanes
  | 0, l => l
  | n + 1, l => rounds n (sipRound l)

/-- C_ROUNDS: rounds for each absorbed word (00_scope.md R2, R8). -/
def cRounds : Nat := 2

/-- D_ROUNDS: rounds after the finalization constant (R2, R8). -/
def dRounds : Nat := 4

/-- The round unit (R84): `rsel = 0` selects the two rounds of an absorbed word, `rsel = 1` the four of finalization. -/
def roundUnit (rsel : Bool) (l : Lanes) : Lanes := rounds (if rsel then dRounds else cRounds) l

end Sys2Proof.Machine
end

