-- ==== Sys2Proof/Machine/Ops.lean ====
section
/-! DEFINITION. The shared operations on the state: absorbing a word, admission, the name of a refusal, reset, and what the
hardware leaves behind after a refused command. The block takes no exception and returns from none (60_exceptions.md
R96, R104), so there is no such operation. -/

namespace Sys2Proof.Machine

/-- The state with the six data registers replaced and nothing else touched. -/
def State.withHash (s : State) (h : HashState) : State := { s with toHashState := h }

/-- The state with the four lanes replaced and nothing else touched. -/
def State.withLanes (s : State) (l : Lanes) : State := s.withHash { s.toHashState with toLanes := l }

/-- `Compress(w)` (41_append.md R71): the word enters through `v3`, two rounds, and through `v0`. -/
def compress (w : Word) (l : Lanes) : Lanes :=
  let m := roundUnit false { l with v3 := l.v3 ^^^ w }
  { m with v0 := m.v0 ^^^ w }

/-- Admission of APPEND and FINALIZE (10_state.md R22): in ABSORB only, otherwise refused by the phase reason. -/
def admitInAbsorb (s : State) (answer : State) : Result :=
  match s.phase with
  | .uninit => .refused .uninitialised
  | .absorb => .next answer
  | .done => .refused .finalized

/-- The refusal for a reserved control word (30_encoding.md R55, R56). -/
def refusalOf : Reserved → Refusal
  | .op => .reservedOp
  | .nbytes => .reservedNbytes
  | .field => .reservedField

/-- The six data registers and `digest` become unspecified: seven free values are drawn. DESIGN CHOICE (safe; log 4, 5). -/
def State.unspecified (s : State) : State :=
  { s with
    v0 := Config.unspecWord s.draws
    v1 := Config.unspecWord (s.draws + 1)
    v2 := Config.unspecWord (s.draws + 2)
    v3 := Config.unspecWord (s.draws + 3)
    pending := Config.unspecWord (s.draws + 4)
    totalLength := Config.unspecWord (s.draws + 5)
    digest := Config.unspecWord (s.draws + 6)
    draws := s.draws + 7 }

/-- A clock edge with `rst = 1` (70_reset_and_hazards.md R110, R112): UNINIT, not busy, a command in progress abandoned,
no data register given a value. -/
def State.applyReset (s : State) : State :=
  { s.unspecified with phase := .uninit, busy := none }

/-- The phase a free choice stands for. -/
def phaseOfChoice (c : Fin 3) : Phase :=
  if c = 0 then .uninit else if c = 1 then .absorb else .done

/-- What the HARDWARE holds once a refused command has completed (60_exceptions.md R100): the registers and the phase are
unspecified, the block is ready. The core machine's step refuses and never uses this; the clock-level machine, which has
no refusal, does (log 5). -/
def State.afterRefused (s : State) : State :=
  { s.unspecified with phase := phaseOfChoice (Config.unspecPhase s.draws), busy := none }

end Sys2Proof.Machine
end

