-- ==== Sys2Proof/Machine/Append.lean ====
section
/-! DEFINITION. APPEND: the beat, the pending buffer, the absorption of a completed word (41_append.md). -/

namespace Sys2Proof.Machine

/-- The update of the HashState by a beat of `n` bytes (R72). `k` is taken from the old `totalLength`. -/
def hashAppend (n : Nat) (wdata : Wide) (h : HashState) : HashState :=
  let k := fill h.totalLength
  let sh := shifted k (beat n wdata)
  let lo := mergeLo h.pending sh
  let hi := mergeHi sh
  let len := add64 h.totalLength (BitVec.ofNat 64 n)
  if fires k n then { toLanes := compress lo h.toLanes, pending := hi, totalLength := len }
  else { toLanes := h.toLanes, pending := lo, totalLength := len }

/-- APPEND (R67, R72). A byte count above 8 is refused before the phase is looked at (60_exceptions.md R103). -/
def execAppend (nbytes : BitVec 4) (wdata : Wide) (s : State) : Result :=
  if nbytes.toNat ≤ 8 then
    admitInAbsorb s (s.withHash (hashAppend nbytes.toNat wdata s.toHashState))
  else .refused .reservedNbytes

end Sys2Proof.Machine
end

