-- ==== Sys2Proof/Machine/Finalize.lean ====
section
/-! DEFINITION. FINALIZE: the final word with the length encoding, the digest (43_finalize.md). -/

namespace Sys2Proof.Machine

/-- FINAL_CONST, zero-extended to 64 bits (00_scope.md R8; 42_mixing_round.md R87). -/
def finalConst : Word := 0xff#64

/-- The final word (R89): `pending | (zext_64(totalLength[7:0]) << 56)`. -/
def finalWord (h : HashState) : Word :=
  h.pending ||| ((h.totalLength.extractLsb' 0 8).setWidth 64 <<< 56)

/-- The lanes after FINALIZE (R91): the final word absorbed, the constant into `v2`, four rounds. -/
def finalLanes (h : HashState) : Lanes :=
  let c := compress (finalWord h) h.toLanes
  roundUnit true { c with v2 := c.v2 ^^^ finalConst }

/-- The digest (R92): the exclusive OR of the four lanes. -/
def foldLanes (l : Lanes) : Word := l.v0 ^^^ l.v1 ^^^ l.v2 ^^^ l.v3

/-- FINALIZE (R91). The lanes are mixed in place (R93; log 9); `pending` and `totalLength` are not written. -/
def execFinalize (s : State) : Result :=
  admitInAbsorb s { s.withLanes (finalLanes s.toHashState) with
    phase := .done
    digest := foldLanes (finalLanes s.toHashState) }

end Sys2Proof.Machine
end

