-- ==== Sys2Proof/Machine/Init.lean ====
section
/-! DEFINITION. INIT, state initialization (40_init.md). -/

namespace Sys2Proof.Machine

/-- The four lane constants INIT_CONST (R64; 00_scope.md R8). -/
def initConst : Lanes :=
  ⟨0x736f6d6570736575#64, 0x646f72616e646f6d#64, 0x6c7967656e657261#64, 0x7465646279746573#64⟩

/-- The HashState INIT writes (R62): it is a function of the seed alone. -/
def hashInit (seed : Wide) : HashState where
  v0 := initConst.v0 ^^^ seedK0 seed
  v1 := initConst.v1 ^^^ seedK1 seed
  v2 := initConst.v2 ^^^ seedK0 seed
  v3 := initConst.v3 ^^^ seedK1 seed
  pending := 0#64
  totalLength := 0#64

/-- INIT (R62, R65): admitted in every phase. The `digest` register is not written by any rule and its value becomes
unspecified: DESIGN CHOICE (safe; log 3), a fresh free value stands there. -/
def execInit (seed : Wide) (s : State) : Result :=
  .next { s.withHash (hashInit seed) with
    phase := .absorb
    digest := Config.unspecWord s.draws
    draws := s.draws + 1 }

end Sys2Proof.Machine
end

