-- ==== Sys2Proof/Machine/Dispatch.lean ====
section
/-! DEFINITION. One arm per command, each one direct call of its meaning (30_encoding.md R52). -/

namespace Sys2Proof.Machine

def exec (i : Instr) (s : State) : Host.Outcome State Fault Refusal :=
  match i with
  | .init seed => Sys2Proof.Machine.execInit seed s
  | .append nbytes wdata => Sys2Proof.Machine.execAppend nbytes wdata s
  | .finalize => Sys2Proof.Machine.execFinalize s

end Sys2Proof.Machine
end

