-- ==== Sys2Proof/Machine/Command.lean ====
section
/-! DEFINITION. From a transfer to its effect, and what one sample of the pins does to a ready engine (30_encoding.md R49,
R50; 60_exceptions.md R101, R103; 70_reset_and_hazards.md R110). -/

namespace Sys2Proof.Machine

/-- Carry out an accepted command: decoding comes before admission (R103). -/
def runTransfer (c : Transfer) (s : State) : Result :=
  match decode c with
  | .ok i => exec i s
  | .error r => .refused (refusalOf r)

/-- One clock edge at which the engine is ready: reset wins (R110), a valid command is accepted and carried out (R49, R6),
and without one the state holds (R49). -/
def readyEdge (p : Pins) (s : State) : Result :=
  if p.rst then .next s.applyReset
  else if p.cmdValid then runTransfer p.transfer s
  else .next s

/-- The pins of a cycle that presents the transfer `c`. -/
def presenting (c : Transfer) : Pins := ⟨false, true, c.ctl, c.wdata⟩

/-- The pins of a cycle that presents an opcode-table word (log 11). A number that is no transfer drives no command. -/
def pinsOfTableWord (nbits w : Nat) : Pins :=
  match transferOfTableWord nbits w with
  | some c => presenting c
  | none => ⟨false, false, 0#6, 0#128⟩

end Sys2Proof.Machine
end

