-- ==== Sys2Proof/Machine/Step.lean ====
section
/-! DEFINITION. The step of the core machine, at the spec's transaction level (00_scope.md R6; log 1), and the host's way
to present one command. -/

namespace Sys2Proof.Machine

/-- One step. A command in progress is brought to its end (log 12). Otherwise the next sample of the pins is taken: a reset,
an accepted command with its whole effect, or a cycle without a command. When the host drives nothing the block is idle
and holds its state (60_exceptions.md R109). -/
def step (s : State) : Host.Outcome State Fault Refusal :=
  match s.busy with
  | some c => runTransfer c { s with busy := none }
  | none =>
    match s.hostCycles with
    | [] => .next s
    | p :: rest => readyEdge p { s with hostCycles := rest }

/-- The state in which the very next step accepts and carries out the opcode-table word `w`: the engine is ready and the
host's next cycle presents it (log 7, log 11). -/
def State.withFetchWord (s : State) (nbits w : Nat) : State :=
  { s with busy := none, hostCycles := pinsOfTableWord nbits w :: s.hostCycles }

end Sys2Proof.Machine
end

