-- ==== Sys2Proof/Machine/Clock.lean ====
section
/-! DEFINITION. The block at its clock edges: the handshake, `busy`, latency, reset during a command, and what the HARDWARE
does on a refused command (30_encoding.md R48 to R50; 10_state.md R26; 60_exceptions.md R99 to R101;
70_reset_and_hazards.md R110 to R116, R120). The core machine (Step.lean) is this one seen at the edges where it is ready. -/

namespace Sys2Proof.Machine

/-- The block and the edges still to pass before the command in progress completes (log 10). -/
structure Clocked where
  core : State
  left : Nat
  deriving DecidableEq, Repr

/-- A command is accepted at this edge (R49). -/
def Clocked.accepts (p : Pins) (k : Clocked) : Bool := p.cmdValid && k.core.cmdReady && !p.rst

/-- The cycles beyond the first that a command takes. The hardware checks neither phase nor encoding (R99, R101); a
reserved control word takes a time of its own. -/
def extraCycles (L : Config.Latency) (c : Transfer) (h : HashState) : Nat :=
  match decode c with
  | .ok (.init _) => L.init
  | .ok (.append nbytes _) => if fires (fill h.totalLength) nbytes.toNat then L.appendFire else L.appendHold
  | .ok .finalize => L.finalize
  | .error _ => L.refused

/-- The latency of a command: finite and at least 1 (R120). -/
def latency (L : Config.Latency) (c : Transfer) (h : HashState) : Nat := extraCycles L c h + 1

/-- The state once the command `c` has completed: its rule's, or an unspecified one where the model refuses (R100). -/
def completed (c : Transfer) (s : State) : State :=
  match runTransfer c s with
  | .next t => t
  | .fault f => nomatch f
  | .refused _ => s.afterRefused

/-- One rising edge of `clk`. Reset wins (R110). While busy the pins are not looked at (R50): the edges pass until the command
completes, and only then does the state change (R26, R41). A ready engine accepts a valid command, or holds (R49). -/
def tick (L : Config.Latency) (p : Pins) (k : Clocked) : Clocked :=
  if p.rst then ⟨k.core.applyReset, 0⟩
  else
    match k.core.busy with
    | some c =>
      match k.left with
      | n + 1 => ⟨k.core, n⟩
      | 0 => ⟨completed c { k.core with busy := none }, 0⟩
    | none =>
      if p.cmdValid then
        ⟨{ k.core with busy := some p.transfer }, extraCycles L p.transfer k.core.toHashState⟩
      else k

/-- A run of edges, one sample of the pins for each. -/
def tickAll (L : Config.Latency) : List Pins → Clocked → Clocked
  | [], k => k
  | p :: ps, k => tickAll L ps (tick L p k)

end Sys2Proof.Machine
end

