-- ==== Sys2Proof/Machine/Reference.lean ====
section
/-! DEFINITION. The source's own algorithm over byte sequences, which the commands are held to: `append_ref` (41_append.md
R77), the HashState as a function of the seed and the stream (10_state.md R29), the digest as a function of the two
(43_finalize.md R94). None of it is a command of the hardware. -/

namespace Sys2Proof.Machine

/-- Packing of a byte list, the first byte least significant (20_memory.md R35). -/
def packBytes : List Byte → Word
  | [] => 0#64
  | b :: bs => b.setWidth 64 ||| (packBytes bs <<< 8)

/-- The complete 8-byte words of a byte list, in order (R29: `w_i = le64(msg[8i], ..., msg[8i+7])`). -/
def fullWords : List Byte → List Word
  | b0 :: b1 :: b2 :: b3 :: b4 :: b5 :: b6 :: b7 :: rest => le64 b0 b1 b2 b3 b4 b5 b6 b7 :: fullWords rest
  | _ => []

/-- The bytes after the last complete word (R29: `msg[8q + j]`). -/
def tailBytes : List Byte → List Byte
  | _ :: _ :: _ :: _ :: _ :: _ :: _ :: _ :: rest => tailBytes rest
  | bs => bs

/-- Absorb a list of words in order. -/
def compressAll : List Word → Lanes → Lanes
  | [], l => l
  | w :: ws, l => compressAll ws (compress w l)

/-- The HashState after INIT with `seed` and the stream `msg` (R29). -/
def streamState (seed : Wide) (msg : List Byte) : HashState where
  toLanes := compressAll (fullWords msg) (hashInit seed).toLanes
  pending := packBytes (tailBytes msg)
  totalLength := BitVec.ofNat 64 msg.length

/-- SipHash-2-4 of `msg` under `seed`, from the byte list alone (R29, R91, R92, R94). -/
def sipHash24 (seed : Wide) (msg : List Byte) : Word :=
  foldLanes (finalLanes (streamState seed msg))

/-- R77 step 2: consume bytes from the front into `pending` at offset `k`, `k+1`, … while `k < 8`; answers `k`, `pending`
and the bytes left. -/
def fillPending : Nat → Word → List Byte → Nat × Word × List Byte
  | k, p, [] => (k, p, [])
  | k, p, b :: bs =>
    if k < 8 then fillPending (k + 1) (p ||| (b.setWidth 64 <<< (8 * k))) bs else (k, p, b :: bs)

/-- R77 step 5: pack the trailing bytes into `pending` from offset `j`. -/
def packTail : Nat → Word → List Byte → Word
  | _, p, [] => p
  | j, p, b :: bs => packTail (j + 1) (p ||| (b.setWidth 64 <<< (8 * j))) bs

/-- R77 steps 4 and 5: absorb the full chunks directly, then pack what is left. -/
def appendFrom : HashState → List Byte → HashState
  | h, b0 :: b1 :: b2 :: b3 :: b4 :: b5 :: b6 :: b7 :: rest =>
    appendFrom { h with toLanes := compress (le64 b0 b1 b2 b3 b4 b5 b6 b7) h.toLanes } rest
  | h, bs => { h with pending := packTail 0 h.pending bs }

/-- `append_ref(b, len)` (R77), step by step; `totalLength` is increased first and `k` taken from its old value. -/
def appendRef (bs : List Byte) (h : HashState) : HashState :=
  let k := fill h.totalLength
  let h1 := { h with totalLength := h.totalLength + BitVec.ofNat 64 bs.length }
  if 0 < k then
    match fillPending k h1.pending bs with
    | (k', p, rest) =>
      if k' < 8 then { h1 with pending := p }
      else appendFrom { h1 with toLanes := compress p h1.toLanes, pending := 0#64 } rest
  else appendFrom h1 bs

/-- The bytes a beat delivers, in stream order: lanes 0 to `n - 1` (20_memory.md R37). -/
def beatBytes (n : Nat) (wdata : Wide) : List Byte := (List.range n).map (byteLane wdata)

end Sys2Proof.Machine
end

