-- ==== Sys2Proof/Machine/Stream.lean ====
section
/-! DEFINITION. Sequences of commands: their meaning as a fold (20_memory.md R43), and the command notation and
pseudo-commands of 30_encoding.md R60, R61. -/

namespace Sys2Proof.Machine

/-- The left fold of the command rules over a sequence, ending at the first refusal (R43). -/
def execAll : List Instr → State → Result
  | [], s => .next s
  | i :: is, s =>
    match exec i s with
    | .next t => execAll is t
    | .fault r => .fault r
    | .refused r => .refused r

/-- A seed given as bytes, seed byte `i` on lane `i` (R60, 20_memory.md R37). -/
def packWide : List Byte → Wide
  | [] => 0#128
  | b :: bs => b.setWidth 128 ||| (packWide bs <<< 8)

/-- `INIT <32 hex digits>` (R60). -/
def initCmd (seed : List Byte) : Instr := .init (packWide seed)

/-- `APPEND <2n hex digits>` (R60): byte `j` on lane `j`, the other lanes zero. -/
def appendCmd (bs : List Byte) : Instr :=
  .append (BitVec.ofNat 4 bs.length) ((packBytes bs).setWidth 128)

/-- The beats of `APPENDS` for a non-empty string (R61): beats of 8, then one of what is left. -/
def appendsBeats : List Byte → List Instr
  | b0 :: b1 :: b2 :: b3 :: b4 :: b5 :: b6 :: b7 :: rest =>
    appendCmd [b0, b1, b2, b3, b4, b5, b6, b7] :: appendsBeats rest
  | [] => []
  | b :: bs => [appendCmd (b :: bs)]

/-- `APPENDS <hex string>` (R61): the zero-length beat for the empty string. -/
def appendsCmds (bs : List Byte) : List Instr :=
  if bs = [] then [appendCmd []] else appendsBeats bs

/-- `HASH <seed>, <hex string>` (R61). -/
def hashCmds (seed msg : List Byte) : List Instr :=
  initCmd seed :: (appendsCmds msg ++ [.finalize])

end Sys2Proof.Machine
end

