-- ==== Sys2Proof/Safety.lean ====
section
/-! DEFINITION. What claims are stated in: the invariant of 10_state.md R20, the phase table of R22, and beats as the host
delivers them. -/

namespace Sys2Proof.Machine

/-- R20, item 1, in bits: with `k = totalLength[2:0]`, `pending >> (8k) = 0`. -/
abbrev HashState.Tidy (h : HashState) : Prop := h.pending >>> (8 * fill h.totalLength) = 0#64

/-- The invariant: R20 item 1 holds in ABSORB and in DONE (R20: FINALIZE writes neither register). In UNINIT the registers
hold anything. -/
abbrev State.Inv (s : State) : Prop := s.phase = .uninit ∨ s.toHashState.Tidy

/-- The complete phase table (R22): the phase after, or the reason of the refusal. -/
def phaseTable : Phase → Instr → Except Refusal Phase
  | _, .init _ => .ok .absorb
  | .uninit, .append _ _ => .error .uninitialised
  | .uninit, .finalize => .error .uninitialised
  | .absorb, .append _ _ => .ok .absorb
  | .absorb, .finalize => .ok .done
  | .done, .append _ _ => .error .finalized
  | .done, .finalize => .error .finalized

/-- Beats as the host delivers them: a byte count of at most 8 with an operand (41_append.md R67). -/
abbrev legalBeats (bs : List (BitVec 4 × Wide)) : Prop := ∀ b ∈ bs, b.1.toNat ≤ 8

/-- The APPEND commands of a list of beats. -/
def beatCmds (bs : List (BitVec 4 × Wide)) : List Instr := bs.map fun b => .append b.1 b.2

/-- The stream a list of beats delivers, in acceptance order (20_memory.md R31). -/
def streamOf (bs : List (BitVec 4 × Wide)) : List Byte := bs.flatMap fun b => beatBytes b.1.toNat b.2

end Sys2Proof.Machine
end

