-- ==== Sys2Proof/Certificates/Slice0/Obligations.lean ====
section
/-! DEFINITION. The statements for the provers, each about the machine and none about a program. A docstring names the rule of
spec/ it formalises; where a clause rests on a choice of the model it names the log entry. -/

open Sys2Proof Sys2Proof.Machine

/-! ### Encoding -/

/-- R55, whole: the decode function clause by clause, the rows in match and mask form, no word in two rows, and the
count of 11 legal and 53 reserved control words. -/
def Obligations.DecodeIsTheOpcodeMap : Prop :=
  (∀ (ctl : Ctl) (w : Wide),
    let op := ctl.extractLsb' 4 2
    let n := ctl.extractLsb' 0 4
    (op = 0b01#2 → n = 0#4 → decode ⟨ctl, w⟩ = .ok (.init w)) ∧
    (op = 0b10#2 → n.toNat ≤ 8 → decode ⟨ctl, w⟩ = .ok (.append n w)) ∧
    (op = 0b11#2 → n = 0#4 → decode ⟨ctl, w⟩ = .ok .finalize) ∧
    (op = 0b00#2 → decode ⟨ctl, w⟩ = .error .op) ∧
    (op = 0b10#2 → 8 < n.toNat → decode ⟨ctl, w⟩ = .error .nbytes) ∧
    (op = 0b01#2 ∨ op = 0b11#2 → n ≠ 0#4 → decode ⟨ctl, w⟩ = .error .field) ∧
    ((decode ⟨ctl, w⟩).toBool = true ↔ ∃ r ∈ opcodeRows, r.selects ctl = true)) ∧
  (∀ ctl : Ctl, (opcodeRows.filter fun r => r.selects ctl).length ≤ 1) ∧
  (∀ w : Wide,
    ((List.range 64).filter fun c => (decode ⟨BitVec.ofNat 6 c, w⟩).toBool).length = 11 ∧
    ((List.range 64).filter fun c => !(decode ⟨BitVec.ofNat 6 c, w⟩).toBool).length = 53)

/-- Words written out bit by bit from R51 to R55 and the examples of R60, one for each row of the opcode table. -/
def Obligations.WrittenOutWordsDecode : Prop :=
  decode ⟨0b010000#6, 0x0f0e0d0c0b0a09080706050403020100#128⟩
    = .ok (.init 0x0f0e0d0c0b0a09080706050403020100#128) ∧
  decode ⟨0b100011#6, 0x000000000000000000000000000a0908#128⟩
    = .ok (.append 3#4 0x000000000000000000000000000a0908#128) ∧
  decode ⟨0b101000#6, 0x00000000000000000706050403020100#128⟩
    = .ok (.append 8#4 0x00000000000000000706050403020100#128) ∧
  decode ⟨0b110000#6, 0xffffffffffffffffffffffffffffffff#128⟩ = .ok .finalize ∧
  decode ⟨0b101001#6, 0#128⟩ = .error .nbytes ∧
  decode ⟨0b010001#6, 0#128⟩ = .error .field ∧
  decode ⟨0b001111#6, 0#128⟩ = .error .op

/-- Decoding the transfer of a well-formed command gives the command back, every operand bit included. -/
def Obligations.DecodeOfEncode : Prop :=
  ∀ i : Instr, i.wf = true → decode (encode i) = .ok i

/-- The other direction: a command read from a transfer is well formed, and the transfer is the command's own, but for the
operand FINALIZE ignores (R54). -/
def Obligations.EncodeOfDecode : Prop :=
  ∀ (c : Transfer) (i : Instr), decode c = .ok i →
    i.wf = true ∧ (encode i).ctl = c.ctl ∧ (i = .finalize ∨ (encode i).wdata = c.wdata)

/-- R60, whole: `ctl` and byte lanes of each notation, and its examples. -/
def Obligations.CommandNotationOnThePort : Prop :=
  (∀ seed : List Byte, seed.length = 16 →
    (encode (initCmd seed)).ctl = 0x10#6 ∧
    ∀ i < 16, byteLane (encode (initCmd seed)).wdata i = seed.getD i 0#8) ∧
  (∀ bs : List Byte, bs.length ≤ 8 →
    (encode (appendCmd bs)).ctl = 0x20#6 + BitVec.ofNat 6 bs.length ∧
    (∀ j < 16, byteLane (encode (appendCmd bs)).wdata j = if j < bs.length then bs.getD j 0#8 else 0#8)) ∧
  encode (appendCmd []) = ⟨0x20#6, 0#128⟩ ∧
  encode .finalize = ⟨0x30#6, 0#128⟩ ∧
  encode (initCmd [0x00, 0x01, 0x02, 0x03, 0x04, 0x05, 0x06, 0x07, 0x08, 0x09, 0x0a, 0x0b, 0x0c, 0x0d, 0x0e, 0x0f])
    = ⟨0x10#6, 0x0f0e0d0c0b0a09080706050403020100#128⟩ ∧
  encode (appendCmd [0x08, 0x09, 0x0a]) = ⟨0x23#6, 0x000000000000000000000000000a0908#128⟩

/-- R61: what `APPENDS` expands to. Every command is an APPEND of at most 8 bytes, the bytes in order are the string, and
there are as many beats as the rule says: one for the empty string, else `L div 8` and one more for a remainder. -/
def Obligations.AppendsExpansion : Prop :=
  ∀ bs : List Byte, ∃ beats : List (BitVec 4 × Wide),
    appendsCmds bs = beatCmds beats ∧ legalBeats beats ∧ streamOf beats = bs ∧
    (∀ b ∈ beats.dropLast, b.1 = 8#4) ∧
    beats.length = if bs.length = 0 then 1 else bs.length / 8 + (if bs.length % 8 = 0 then 0 else 1)

/-! ### Operands -/

/-- R58, whole: the nine masks; the beat holds the operand's bits below `8n` and zeros above, `wdata[127:64]` never; and it
is the little-endian packing of the beat's bytes. -/
def Obligations.BytemaskAndBeat : Prop :=
  (List.range 9).map bytemask =
    [0x0000000000000000#64, 0x00000000000000ff#64, 0x000000000000ffff#64, 0x0000000000ffffff#64, 0x00000000ffffffff#64,
      0x000000ffffffffff#64, 0x0000ffffffffffff#64, 0x00ffffffffffffff#64, 0xffffffffffffffff#64] ∧
  (∀ n ≤ 8, ∀ (w : Wide) (i : Nat), (beat n w).getLsbD i = (decide (i < 8 * n) && w.getLsbD i)) ∧
  (∀ n ≤ 8, ∀ w : Wide, (beat n w).setWidth 128 = w &&& (bytemask n).setWidth 128) ∧
  (∀ n ≤ 8, ∀ w : Wide, beat n w = packBytes (beatBytes n w))

/-- R37 with R35, R36 and R59: the bus lane order is the packing order, so the seed halves and the masked beat are the
little-endian words of the lanes with no byte swap. -/
def Obligations.LanesPackLittleEndian : Prop :=
  (∀ b0 b1 b2 b3 b4 b5 b6 b7 : Byte, (le64 b0 b1 b2 b3 b4 b5 b6 b7).toNat =
    b0.toNat + b1.toNat * 2 ^ 8 + b2.toNat * 2 ^ 16 + b3.toNat * 2 ^ 24 + b4.toNat * 2 ^ 32 + b5.toNat * 2 ^ 40
      + b6.toNat * 2 ^ 48 + b7.toNat * 2 ^ 56) ∧
  (∀ seed : Wide,
    seedK0 seed = le64 (byteLane seed 0) (byteLane seed 1) (byteLane seed 2) (byteLane seed 3)
      (byteLane seed 4) (byteLane seed 5) (byteLane seed 6) (byteLane seed 7) ∧
    seedK1 seed = le64 (byteLane seed 8) (byteLane seed 9) (byteLane seed 10) (byteLane seed 11)
      (byteLane seed 12) (byteLane seed 13) (byteLane seed 14) (byteLane seed 15)) ∧
  (∀ (n : Nat) (w : Wide), n ≤ 8 → w.extractLsb' 0 64 &&& bytemask n = packBytes ((List.range n).map (byteLane w))) ∧
  le64 0x00 0x01 0x02 0x03 0x04 0x05 0x06 0x07 = 0x0706050403020100#64 ∧
  packBytes [0x08, 0x09, 0x0a] = 0x00000000000a0908#64

/-! ### The round -/

/-- R85, whole: addition modulo 2^64 with the carry discarded, and its examples.
The spec marks the wrap `[from general knowledge, not in source]` in R85. -/
def Obligations.AdditionWraps : Prop :=
  (∀ a b : Word, (add64 a b).toNat = (a.toNat + b.toNat) % 2 ^ 64) ∧
  add64 0xffffffffffffffff#64 0x0000000000000001#64 = 0x0000000000000000#64 ∧
  add64 0xffffffffffffffff#64 0xffffffffffffffff#64 = 0xfffffffffffffffe#64 ∧
  (∀ x : Word, add64 x 0#64 = x)

/-- R86, whole: `y[(i + b) mod 64] = x[i]`, the shift form, the swap of halves, and its examples.
The spec marks the bit-by-bit definition `[from general knowledge, not in source]` in R86. -/
def Obligations.RotationMovesEveryBit : Prop :=
  (∀ (x : Word) (b i : Nat), 0 < b → b < 64 → i < 64 → (rotl x b).getLsbD ((i + b) % 64) = x.getLsbD i) ∧
  (∀ (x : Word) (b : Nat), 0 < b → b < 64 → rotl x b = (x <<< b) ||| (x >>> (64 - b))) ∧
  (∀ x : Word, rotl x 32 = x.extractLsb' 0 32 ++ x.extractLsb' 32 32) ∧
  rotl 0x0000000000000001#64 13 = 0x0000000000002000#64 ∧
  rotl 0x8000000000000000#64 1 = 0x0000000000000001#64 ∧
  rotl 0x0123456789abcdef#64 32 = 0x89abcdef01234567#64 ∧
  rotl 0x0123456789abcdef#64 13 = 0x68acf13579bde024#64

/-- R81 with the example of R80: the round in single-assignment form, in the library's addition and rotation.
The spec marks R81 `[derived: from rule R80]`. -/
def Obligations.RoundInSingleAssignmentForm : Prop :=
  (∀ a0 a1 a2 a3 : Word,
    let s0 := a0 + a1
    let t1 := a1.rotateLeft 13 ^^^ s0
    let u0 := s0.rotateLeft 32
    let s2 := a2 + a3
    let t3 := a3.rotateLeft 16 ^^^ s2
    let r0 := u0 + t3
    let r3 := t3.rotateLeft 21 ^^^ r0
    let w2 := s2 + t1
    let r1 := t1.rotateLeft 17 ^^^ w2
    let r2 := w2.rotateLeft 32
    sipRound ⟨a0, a1, a2, a3⟩ = ⟨r0, r1, r2, r3⟩) ∧
  sipRound ⟨0x7469686173716475#64, 0x6b617f6d656e6665#64, 0x6b7f62616d677361#64, 0x7c6d6c6a717c6d7b#64⟩
    = ⟨0x64668a929363847f#64, 0x4ed232083d9aa8dc#64, 0xf2f74892d8141a2e#64, 0x9290f9810552f4a8#64⟩

/-- R83 and the two selections of R84. -/
def Obligations.RoundsIterateTheRound : Prop :=
  (∀ (n : Nat) (l : Lanes), rounds n l = sipRound^[n] l) ∧
  (∀ l : Lanes, rounds 4 l = rounds 2 (rounds 2 l)) ∧
  (∀ l : Lanes, roundUnit false l = rounds 2 l ∧ roundUnit true l = rounds 4 l) ∧
  rounds 2 ⟨0x7469686173716475#64, 0x6b617f6d656e6665#64, 0x6b7f62616d677361#64, 0x7b6b696e727e6c7b#64⟩
    = ⟨0x75126fd44af190b6#64, 0x084235164f06142b#64, 0x37b04f9f8026831d#64, 0x1b4678cde8253231#64⟩ ∧
  rounds 4 ⟨0x7469686173716475#64, 0x6b617f6d656e6665#64, 0x6b7f62616d677361#64, 0x7b6b696e727e6c7b#64⟩
    = ⟨0x3abf7346c94dcef0#64, 0xb93544252df3d2e3#64, 0x4757805fba560765#64, 0x558977760fce9e72#64⟩

/-- R87 (a) and (b): the zero lanes are a fixed point, and the round and every repetition of it are bijections on the lane
state.
The spec marks R87 `[derived: from rules R80, R85 and R86]`. -/
def Obligations.RoundIsABijection : Prop :=
  sipRound ⟨0#64, 0#64, 0#64, 0#64⟩ = ⟨0#64, 0#64, 0#64, 0#64⟩ ∧
  Function.Bijective sipRound ∧ ∀ n : Nat, Function.Bijective (rounds n)

/-- R71, whole, with its example. -/
def Obligations.CompressAbsorbsAWord : Prop :=
  (∀ (w v0 v1 v2 v3 : Word),
    let m := sipRound (sipRound ⟨v0, v1, v2, v3 ^^^ w⟩)
    compress w ⟨v0, v1, v2, v3⟩ = ⟨m.v0 ^^^ w, m.v1, m.v2, m.v3⟩) ∧
  compress 0x0706050403020100#64
      ⟨0x7469686173716475#64, 0x6b617f6d656e6665#64, 0x6b7f62616d677361#64, 0x7b6b696e727e6c7b#64⟩
    = ⟨0x4a017198de0a59e0#64, 0x0d52f6f62a4f59a4#64, 0x634cb3577b01fd3d#64, 0xa5224d6f55c7d9c8#64⟩

/-! ### INIT -/

/-- R62 with R59 and R64: INIT completes from every state, with the lanes, `pending`, `totalLength`, `phase` of the rule;
`digest_valid` is 0 after it and the digest output has no value; `busy` and the host's cycles are untouched. The
contents of the `digest` register are a free value (log 3), about which nothing is said. -/
def Obligations.InitCompletes : Prop :=
  (∀ (seed : Wide) (s : State),
    let k0 := seed.extractLsb' 0 64
    let k1 := seed.extractLsb' 64 64
    decode ⟨0x10#6, seed⟩ = .ok (.init seed) ∧
    ∃ t, exec (.init seed) s = .next t ∧
      t.v0 = 0x736f6d6570736575#64 ^^^ k0 ∧ t.v1 = 0x646f72616e646f6d#64 ^^^ k1 ∧
      t.v2 = 0x6c7967656e657261#64 ^^^ k0 ∧ t.v3 = 0x7465646279746573#64 ^^^ k1 ∧
      t.pending = 0#64 ∧ t.totalLength = 0#64 ∧ t.phase = .absorb ∧
      t.digestValid = false ∧ t.digestOut = none ∧ t.busy = s.busy ∧ t.hostCycles = s.hostCycles) ∧
  (∀ s : State, ∃ t, exec (.init 0x0f0e0d0c0b0a09080706050403020100#128) s = .next t ∧
    t.toLanes = ⟨0x7469686173716475#64, 0x6b617f6d656e6665#64, 0x6b7f62616d677361#64, 0x7b6b696e727e6c7b#64⟩)

/-- R65 and R66 (c): INIT forgets everything. From any two states, whatever their registers and phases, the HashState,
the phase and the outputs after it agree.
The spec marks R66 as derived from R62, R59 and R27. -/
def Obligations.InitForgetsTheOldState : Prop :=
  ∀ (seed : Wide) (s₁ s₂ : State), s₁.busy = s₂.busy →
    ∃ t₁ t₂, exec (.init seed) s₁ = .next t₁ ∧ exec (.init seed) s₂ = .next t₂ ∧
      t₁.toHashState = t₂.toHashState ∧ t₁.phase = t₂.phase ∧ t₁.outputs = t₂.outputs

/-- R63: each of the 128 seed bits enters exactly two lanes. Flipping bit `i` flips bit `i` of `v0` and `v2` when it is in
`k0`, bit `i - 64` of `v1` and `v3` when it is in `k1`, and nothing else. -/
def Obligations.SeedBitEntersTwoLanes : Prop :=
  ∀ (seed : Wide) (i : Nat) (s t u : State), i < 128 →
    exec (.init seed) s = .next t → exec (.init (seed ^^^ (1#128 <<< i))) s = .next u →
      u.toLanes =
        (if i < 64 then
          ⟨t.v0 ^^^ (1#64 <<< i), t.v1, t.v2 ^^^ (1#64 <<< i), t.v3⟩
        else ⟨t.v0, t.v1 ^^^ (1#64 <<< (i - 64)), t.v2, t.v3 ^^^ (1#64 <<< (i - 64))⟩)

/-! ### APPEND -/

/-- R72, whole, with its worked example: APPEND of `n ≤ 8` bytes completes in ABSORB with the update of the rule, and
everything else is as before: `phase`, `digest`, `busy`, the host's cycles. The lanes change only in the branch
that completes a word. -/
def Obligations.AppendCompletes : Prop :=
  (∀ (n : BitVec 4) (w : Wide) (s : State), n.toNat ≤ 8 → s.phase = .absorb →
    let k := (s.totalLength.extractLsb' 0 3).toNat
    let bt := w.extractLsb' 0 64 &&& bytemask n.toNat
    let sh := bt.setWidth 128 <<< (8 * k)
    let lo := s.pending ||| sh.extractLsb' 0 64
    let hi := sh.extractLsb' 64 64
    ∃ t, exec (.append n w) s = .next t ∧
      t.totalLength = s.totalLength + n.setWidth 64 ∧
      t.toLanes = (if 8 ≤ k + n.toNat then compress lo s.toLanes else s.toLanes) ∧
      t.pending = (if 8 ≤ k + n.toNat then hi else lo) ∧
      t.phase = .absorb ∧ t.digest = s.digest ∧ t.busy = s.busy ∧ t.hostCycles = s.hostCycles) ∧
  (∀ s : State, s.phase = .absorb →
    s.toHashState = ⟨⟨0x7469686173716475#64, 0x6b617f6d656e6665#64, 0x6b7f62616d677361#64, 0x7b6b696e727e6c7b#64⟩,
      0x0000000000020100#64, 3#64⟩ →
    ∃ t, exec (.append 6#4 0x00000000000000000000080706050403#128) s = .next t ∧
      t.toHashState = ⟨⟨0x4a017198de0a59e0#64, 0x0d52f6f62a4f59a4#64, 0x634cb3577b01fd3d#64, 0xa5224d6f55c7d9c8#64⟩,
        0x0000000000000008#64, 9#64⟩)

/-- R73, whole: the fill level after a beat is `(k + n) mod 8`; a word is absorbed exactly when `k + n ≥ 8`, and then it
is the `k` bytes held followed by the first `8 - k` of the beat, the last `k'` becoming the new `pending`; otherwise
the beat's bytes follow the ones held. INIT sets `k = 0` and FINALIZE leaves it. The bytes held are read from `pending`
under the invariant of R20.
The spec marks R73 `[derived: from rule R72]`. -/
def Obligations.PendingMachineTable : Prop :=
  (∀ (n : BitVec 4) (w : Wide) (s t : State), s.toHashState.Tidy → exec (.append n w) s = .next t →
    let k := fill s.totalLength
    let held := (List.range k).map fun j => s.pending.extractLsb' (8 * j) 8
    let new := beatBytes n.toNat w
    fill t.totalLength = (k + n.toNat) % 8 ∧
    (8 ≤ k + n.toNat →
      t.toLanes = compress (packBytes (held ++ new.take (8 - k))) s.toLanes ∧
      t.pending = packBytes (new.drop (8 - k)) ∧ (new.drop (8 - k)).length = (k + n.toNat) % 8) ∧
    (k + n.toNat < 8 → t.toLanes = s.toLanes ∧ t.pending = packBytes (held ++ new))) ∧
  (∀ (seed : Wide) (s t : State), exec (.init seed) s = .next t → fill t.totalLength = 0) ∧
  (∀ s t : State, exec .finalize s = .next t → fill t.totalLength = fill s.totalLength)

/-- R74 (b) and (e): a beat of 8 bytes leaves the fill level as it is; at level 0 the word absorbed is the beat itself
and `pending` stays 0; and `pending` is 0 whenever the level is 0.
The spec marks R74 `[derived: from rules R72 and R73]`. -/
def Obligations.FullBeatAtWordBoundary : Prop :=
  (∀ s : State, s.toHashState.Tidy → fill s.totalLength = 0 → s.pending = 0#64) ∧
  (∀ (w : Wide) (s : State), s.phase = .absorb → s.toHashState.Tidy →
    ∃ t, exec (.append 8#4 w) s = .next t ∧ fill t.totalLength = fill s.totalLength ∧
      (fill s.totalLength = 0 → t.toLanes = compress (w.extractLsb' 0 64) s.toLanes ∧ t.pending = 0#64))

/-- R75, whole: the zero-length beat leaves the state unchanged in ABSORB, and is refused by phase elsewhere.
The spec marks R75 `[derived: from rule R72]`. -/
def Obligations.ZeroLengthBeatChangesNothing : Prop :=
  ∀ (w : Wide) (s : State),
    (s.phase = .absorb → exec (.append 0#4 w) s = .next s) ∧
    (s.phase = .uninit → exec (.append 0#4 w) s = .refused .uninitialised) ∧
    (s.phase = .done → exec (.append 0#4 w) s = .refused .finalized)

/-- R42: of the beats an engine admits, the zero-length one alone leaves the state unchanged.
The spec marks R42 as derived from R72, R75 and R25. -/
def Obligations.OnlyTheEmptyBeatIsIdle : Prop :=
  ∀ (n : BitVec 4) (w : Wide) (s t : State), exec (.append n w) s = .next t → (t = s ↔ n = 0#4)

/-- R76, whole: two APPENDs whose operands agree on the lanes below `n` do the same from every state; the rule's example. -/
def Obligations.LanesAboveTheCountAreIgnored : Prop :=
  (∀ (n : BitVec 4) (w w' : Wide) (s : State), n.toNat ≤ 8 →
    (∀ j < n.toNat, byteLane w j = byteLane w' j) → exec (.append n w) s = exec (.append n w') s) ∧
  (∀ s : State, s.phase = .absorb → s.pending = 0#64 → fill s.totalLength = 0 →
    ∀ w : Wide, w.extractLsb' 0 64 = 0xaa0e0d0c0b0a0908#64 ∨ w.extractLsb' 0 64 = 0x000e0d0c0b0a0908#64 →
      ∃ t, exec (.append 7#4 w) s = .next t ∧ t.pending = 0x000e0d0c0b0a0908#64)

/-- R79, whole: APPEND keeps the invariant of R20 with `k' = (k + n) mod 8`, and the top byte of `pending` is zero.
The spec marks R79 `[derived: from rules R68, R69, R70 and R72]`. -/
def Obligations.AppendKeepsPendingTidy : Prop :=
  ∀ (n : BitVec 4) (w : Wide) (s t : State), s.toHashState.Tidy → exec (.append n w) s = .next t →
    let k' := (fill s.totalLength + n.toNat) % 8
    fill t.totalLength = k' ∧ t.pending >>> (8 * k') = 0#64 ∧ t.pending.extractLsb' 56 8 = 0#8

/-- R18: `totalLength` counts the bytes of every APPEND modulo 2^64, INIT clears it, FINALIZE leaves it. -/
def Obligations.TotalLengthCountsBytes : Prop :=
  ∀ (i : Instr) (s t : State), exec i s = .next t →
    t.totalLength.toNat =
      match i with
      | .init _ => 0
      | .append n _ => (s.totalLength.toNat + n.toNat) % 2 ^ 64
      | .finalize => s.totalLength.toNat

/-! ### FINALIZE -/

/-- R91 and R92, with the worked example of R91: FINALIZE completes in ABSORB; the lanes, the digest and the phase are the
rule's, and `pending`, `totalLength`, `busy` and the host's cycles are as before (R93). That the lanes are left mixed in
place is the spec's choice in R93 and 90_conflicts.md C1 (log 9). -/
def Obligations.FinalizeCompletes : Prop :=
  (∀ s : State, s.phase = .absorb →
    let b := s.pending ||| ((s.totalLength.extractLsb' 0 8).setWidth 64 <<< 56)
    let c := compress b s.toLanes
    let m := rounds 4 ⟨c.v0, c.v1, c.v2 ^^^ 0x00000000000000ff#64, c.v3⟩
    ∃ t, exec .finalize s = .next t ∧ t.toLanes = m ∧ t.digest = m.v0 ^^^ m.v1 ^^^ m.v2 ^^^ m.v3 ∧ t.phase = .done ∧
      t.pending = s.pending ∧ t.totalLength = s.totalLength ∧ t.busy = s.busy ∧ t.hostCycles = s.hostCycles ∧
      (s.busy = none → t.digestValid = true ∧ t.digestOut = some t.digest)) ∧
  (∀ s : State, s.phase = .absorb →
    s.toHashState = ⟨⟨0x7469686173716475#64, 0x6b617f6d656e6665#64, 0x6b7f62616d677361#64, 0x7b6b696e727e6c7b#64⟩,
      0#64, 0#64⟩ →
    ∃ t, exec .finalize s = .next t ∧ t.digest = 0x726fdb47dd0e0e31#64 ∧
      t.toLanes = ⟨0xe738d0dfdc9b2453#64, 0x214ac5771e0c4cd2#64, 0xe2ea71f68a57ef6d#64, 0x56f7bf1995ce89dd#64⟩)

/-- R89, whole: the final word's formula, its bytes under the invariant of R20, and the rule's examples. -/
def Obligations.FinalWordBytes : Prop :=
  (∀ h : HashState, finalWord h = h.pending ||| ((h.totalLength.extractLsb' 0 8).setWidth 64 <<< 56)) ∧
  (∀ h : HashState, h.Tidy →
    (finalWord h).extractLsb' 56 8 = h.totalLength.extractLsb' 0 8 ∧
    ∀ j < 7, (finalWord h).extractLsb' (8 * j) 8 = h.pending.extractLsb' (8 * j) 8) ∧
  (∀ l : Lanes,
    finalWord ⟨l, 0#64, 0#64⟩ = 0x0000000000000000#64 ∧
    finalWord ⟨l, 0x000e0d0c0b0a0908#64, 15#64⟩ = 0x0f0e0d0c0b0a0908#64 ∧
    finalWord ⟨l, 0#64, 8#64⟩ = 0x0800000000000000#64 ∧
    finalWord ⟨l, 0x00fefdfcfbfaf9f8#64, 255#64⟩ = 0xfffefdfcfbfaf9f8#64 ∧
    finalWord ⟨l, 0#64, 256#64⟩ = 0x0000000000000000#64 ∧
    finalWord ⟨l, 0#64, 257#64⟩ = 0x0100000000000000#64)

/-- R90 and R94: the digest is a function of the lanes, `pending` and `totalLength[7:0]` alone.
The spec marks R94 as derived from R91 and R29. -/
def Obligations.DigestReadsLengthModulo256 : Prop :=
  ∀ s₁ s₂ : State, s₁.phase = .absorb → s₂.phase = .absorb → s₁.toLanes = s₂.toLanes → s₁.pending = s₂.pending →
    s₁.totalLength.toNat % 256 = s₂.totalLength.toNat % 256 →
    ∃ t₁ t₂, exec .finalize s₁ = .next t₁ ∧ exec .finalize s₂ = .next t₂ ∧ t₁.digest = t₂.digest

/-- R19: the width of the counter cannot be seen. Two states that differ in `totalLength` only, and agree there modulo 256,
give equal lanes, `pending`, phase, digest and outputs after any sequence of commands, or both are refused, for the
same reason.
The spec marks R19 as derived from R18, R69 and R89. -/
def Obligations.CounterWidthIsInvisible : Prop :=
  ∀ (is : List Instr) (s₁ s₂ : State), s₂ = { s₁ with totalLength := s₂.totalLength } →
    s₁.totalLength.toNat % 256 = s₂.totalLength.toNat % 256 →
    match execAll is s₁, execAll is s₂ with
    | .next t₁, .next t₂ => t₁.toLanes = t₂.toLanes ∧ t₁.pending = t₂.pending ∧ t₁.phase = t₂.phase ∧
        t₁.digest = t₂.digest ∧ t₁.outputs = t₂.outputs ∧ t₁.totalLength.toNat % 256 = t₂.totalLength.toNat % 256
    | .refused r₁, .refused r₂ => r₁ = r₂
    | _, _ => False

/-! ### Admission, refusal, outputs -/

/-- R22, whole: every cell of the phase table, for every state and every operand, and reset from every phase. -/
def Obligations.PhaseTransitionTable : Prop :=
  (∀ (seed : Wide) (s : State), ∃ t, exec (.init seed) s = .next t ∧ t.phase = .absorb) ∧
  (∀ (n : BitVec 4) (w : Wide) (s : State), n.toNat ≤ 8 →
    (s.phase = .uninit → exec (.append n w) s = .refused .uninitialised) ∧
    (s.phase = .absorb → ∃ t, exec (.append n w) s = .next t ∧ t.phase = .absorb) ∧
    (s.phase = .done → exec (.append n w) s = .refused .finalized)) ∧
  (∀ s : State,
    (s.phase = .uninit → exec .finalize s = .refused .uninitialised) ∧
    (s.phase = .absorb → ∃ t, exec .finalize s = .next t ∧ t.phase = .done) ∧
    (s.phase = .done → exec .finalize s = .refused .finalized)) ∧
  (∀ s : State, s.applyReset.phase = .uninit)

/-- R13 with R103: the step on an accepted transfer answers a next state or one of the five reasons, each exactly under
its condition, the encoding reason before the phase reason; never a fault. -/
def Obligations.EveryCommandHasOneOutcome : Prop :=
  ∀ (s : State) (p : Pins) (rest : List Pins), s.busy = none → s.hostCycles = p :: rest → p.rst = false →
    p.cmdValid = true →
    let op := p.ctl.extractLsb' 4 2
    let n := p.ctl.extractLsb' 0 4
    let legal := (decode p.transfer).toBool = true
    (step s = .refused .reservedOp ↔ op = 0b00#2) ∧
    (step s = .refused .reservedNbytes ↔ op = 0b10#2 ∧ 8 < n.toNat) ∧
    (step s = .refused .reservedField ↔ (op = 0b01#2 ∨ op = 0b11#2) ∧ n ≠ 0#4) ∧
    (step s = .refused .uninitialised ↔ legal ∧ op ≠ 0b01#2 ∧ s.phase = .uninit) ∧
    (step s = .refused .finalized ↔ legal ∧ op ≠ 0b01#2 ∧ s.phase = .done) ∧
    ((∃ t, step s = .next t) ↔ legal ∧ (op = 0b01#2 ∨ s.phase = .absorb)) ∧
    (∀ f : Fault, step s ≠ .fault f)

/-- R25 and R15: what the outputs are, and that they show nothing of the HashState. -/
def Obligations.OutputsShowPhaseBusyDigestOnly : Prop :=
  (∀ s : State,
    (s.outputs.cmdReady = true ↔ s.busy = none) ∧
    (s.outputs.digestValid = true ↔ s.phase = .done ∧ s.busy = none) ∧
    s.outputs.digest = (if s.phase = .done ∧ s.busy = none then some s.digest else none)) ∧
  (∀ (s : State) (h : HashState), (s.withHash h).outputs = s.outputs)

/-- R118 and R24: once `digest_valid` is 1, a step keeps both it and the digest, unless the host resets the block or has an
INIT accepted. -/
def Obligations.DigestStaysUntilInitOrReset : Prop :=
  ∀ s t : State, s.digestValid = true → step s = .next t →
    (t.digestValid = true ∧ t.digest = s.digest) ∨
    (∃ p rest, s.hostCycles = p :: rest ∧ t.digestValid = false ∧
      (p.rst = true ∨ (p.rst = false ∧ p.cmdValid = true ∧ decode p.transfer = .ok (.init p.wdata))))

/-- R24, R25 and R92: `digest_valid` rises by the completion of a FINALIZE taken in ABSORB and by nothing else. That the
digest is then the exclusive OR of the lane registers as they stand in DONE rests on mixing them in place, the choice of
R93 (log 9, DESIGN CHOICE, unsafe). The branch of a command already in progress is the model's reading (log 12, DEDUCED). -/
def Obligations.OnlyFinalizeRaisesDigestValid : Prop :=
  ∀ s t : State, s.digestValid = false → step s = .next t → t.digestValid = true →
    s.phase = .absorb ∧ t.digest = t.v0 ^^^ t.v1 ^^^ t.v2 ^^^ t.v3 ∧
    ∃ c : Transfer, c.ctl = 0x30#6 ∧
      (s.busy = some c ∨ (s.busy = none ∧ ∃ p rest, s.hostCycles = p :: rest ∧ p.rst = false ∧ p.cmdValid = true ∧
        p.transfer = c))

/-! ### The step, reset, the invariant -/

/-- A step runs the decoded command (R6, R49, R55): at a ready state whose next cycle presents a legal control word, the step
is the command's meaning, at the state with that cycle consumed. A step is one transaction by the model's choice (log 1,
DESIGN CHOICE), and the cycle comes from the model's own list (log 7, DESIGN CHOICE). The second clause, a command
already in progress run to its end with neither the pins nor `rst` looked at, is the model's reading of R50 (log 12,
DEDUCED, with log 1). -/
def Obligations.StepRunsTheDecodedCommand : Prop :=
  (∀ (s : State) (p : Pins) (rest : List Pins) (i : Instr), s.busy = none → s.hostCycles = p :: rest → p.rst = false →
    p.cmdValid = true → decode ⟨p.ctl, p.wdata⟩ = .ok i → step s = exec i { s with hostCycles := rest }) ∧
  (∀ (s : State) (c : Transfer) (i : Instr), s.busy = some c → decode c = .ok i →
    step s = exec i { s with busy := none })

/-- R49 and R110 at the step: without a command the state holds, and `rst` wins over a command in the same cycle. -/
def Obligations.StepWithoutACommand : Prop :=
  (∀ s : State, s.busy = none → s.hostCycles = [] → step s = .next s) ∧
  (∀ (s : State) (p : Pins) (rest : List Pins), s.busy = none → s.hostCycles = p :: rest → p.rst = false →
    p.cmdValid = false → step s = .next { s with hostCycles := rest }) ∧
  (∀ (s : State) (p : Pins) (rest : List Pins), s.busy = none → s.hostCycles = p :: rest → p.rst = true →
    ∃ t, step s = .next t ∧ t.phase = .uninit ∧ t.busy = none ∧ t.hostCycles = rest ∧
      t.cmdReady = true ∧ t.digestValid = false)

/-- R43: the run of the machine over a list of presented commands is the left fold of the command rules over that list. -/
def Obligations.RunIsTheFoldOfTheCommands : Prop :=
  ∀ (is : List Instr) (s : State) (rest : List Pins), s.busy = none → (∀ i ∈ is, i.wf = true) →
    s.hostCycles = is.map (fun i => presenting (encode i)) ++ rest →
    Host.Core.run core is.length s = execAll is { s with hostCycles := rest }

/-- R111, whole, for what it gives a value to: the state right after reset. The data registers hold free values (log 2), about
which nothing is said. -/
def Obligations.ResetValues : Prop :=
  State.reset.phase = .uninit ∧ State.reset.busy = none ∧ State.reset.cmdReady = true ∧
  State.reset.digestValid = false ∧ State.reset.digestOut = none

/-- R113: right after reset, APPEND and FINALIZE are refused and INIT starts a hash, whatever the operands. -/
def Obligations.InitIsTheOnlyWayOn : Prop :=
  (∀ (n : BitVec 4) (w : Wide), n.toNat ≤ 8 → exec (.append n w) State.reset = .refused .uninitialised) ∧
  exec .finalize State.reset = .refused .uninitialised ∧
  (∀ seed : Wide, ∃ t, exec (.init seed) State.reset = .next t ∧ t.phase = .absorb)

/-- R20: the invariant holds after reset (UNINIT, where it asks nothing of the registers). -/
def Obligations.ResetMeetsTheInvariant : Prop :=
  State.reset.Inv

/-- R20 and R79, over the whole machine: every step that answers a next state keeps the invariant, from every state that
meets it. -/
def Obligations.StepKeepsTheInvariant : Prop :=
  ∀ s t : State, s.Inv → step s = .next t → t.Inv

/-! ### Streams -/

/-- R78, whole: from every state that meets the invariant in ABSORB, any split of a byte sequence into beats of 0 to 8
bytes leaves the HashState that the source's `append` leaves for the whole sequence; a single beat does so; and
nothing else changes.
The spec marks R78 `[derived: from rules R72 and R77]`. -/
def Obligations.ChunkInvariance : Prop :=
  (∀ (s : State) (beats : List (BitVec 4 × Wide)), s.phase = .absorb → s.toHashState.Tidy → legalBeats beats →
    ∃ t, execAll (beatCmds beats) s = .next t ∧ t.toHashState = appendRef (streamOf beats) s.toHashState ∧
      t.phase = .absorb ∧ t.digest = s.digest ∧ t.busy = s.busy ∧ t.hostCycles = s.hostCycles) ∧
  (∀ (s : State) (n : BitVec 4) (w : Wide), s.phase = .absorb → s.toHashState.Tidy → n.toNat ≤ 8 →
    ∃ t, exec (.append n w) s = .next t ∧ t.toHashState = appendRef (beatBytes n.toNat w) s.toHashState)

/-- R29, whole: after INIT and any beats the six registers are the rule's function of the seed and the stream. The words
and the tail are given by index, as in the rule.
The spec marks R29 as derived from R62, R72 and R78. -/
def Obligations.StateOfSeedAndStream : Prop :=
  ∀ (s : State) (seed : Wide) (beats : List (BitVec 4 × Wide)), legalBeats beats →
    let msg := streamOf beats
    let byte := fun j => msg.getD j 0#8
    let q := msg.length / 8
    let words := (List.range q).map fun i =>
      le64 (byte (8 * i)) (byte (8 * i + 1)) (byte (8 * i + 2)) (byte (8 * i + 3))
        (byte (8 * i + 4)) (byte (8 * i + 5)) (byte (8 * i + 6)) (byte (8 * i + 7))
    ∃ t, execAll (.init seed :: beatCmds beats) s = .next t ∧ t.phase = .absorb ∧
      t.toLanes = words.foldl (fun l w => compress w l) (hashInit seed).toLanes ∧
      t.pending.toNat = ((List.range (msg.length % 8)).map fun j => (byte (8 * q + j)).toNat * 2 ^ (8 * j)).sum ∧
      t.totalLength.toNat = msg.length % 2 ^ 64

/-- R61 and R94: `HASH seed, msg` completes from every state and its digest is the SipHash-2-4 of the byte list, a function
of the seed and the message alone.
The spec marks R94 as derived from R91 and R29. -/
def Obligations.HashComputesSipHash : Prop :=
  ∀ (s : State) (seed msg : List Byte), seed.length = 16 →
    ∃ t, execAll (hashCmds seed msg) s = .next t ∧ t.phase = .done ∧ t.digest = sipHash24 (packWide seed) msg

/-- R38, R94 and R108: the digest does not depend on how the stream was split, nor on the instance. Two engines in any two
states, given the same seed and streams that agree as byte sequences, give the same digest.
The spec marks R38 and R94 as derived. -/
def Obligations.DigestIgnoresChunkingAndInstance : Prop :=
  ∀ (s₁ s₂ : State) (seed : Wide) (b₁ b₂ : List (BitVec 4 × Wide)), legalBeats b₁ → legalBeats b₂ →
    streamOf b₁ = streamOf b₂ →
    ∃ t₁ t₂, execAll (.init seed :: (beatCmds b₁ ++ [.finalize])) s₁ = .next t₁ ∧
      execAll (.init seed :: (beatCmds b₂ ++ [.finalize])) s₂ = .next t₂ ∧ t₁.digest = t₂.digest

/-- The two digests the source prints (95_test_vectors.md X1, X2), from every state. -/
def Obligations.SourceVectors : Prop :=
  ∀ s : State,
    (∃ t, execAll [.init 0x0f0e0d0c0b0a09080706050403020100#128, .finalize] s = .next t ∧
      t.digest = 0x726fdb47dd0e0e31#64) ∧
    (∃ t, execAll [.init 0x0f0e0d0c0b0a09080706050403020100#128, .append 1#4 0#128, .finalize] s = .next t ∧
      t.digest = 0x74f839c593dc67fd#64)

/-! ### The clock edges -/

/-- R49, in part: with `cmd_valid`, `cmd_ready` and not `rst` an edge accepts, so that the command is in progress, nothing else
has changed and `cmd_ready` is 0; a ready engine with `cmd_valid` = 0 and not `rst` holds its state. The edges with
`cmd_ready` = 0 or `rst` = 1 are those of BusyEngineIgnoresThePins and ResetWinsAtEveryEdge. -/
def Obligations.AcceptanceAtAnEdge : Prop :=
  ∀ (L : Config.Latency) (p : Pins) (k : Clocked),
    (p.cmdValid = true ∧ k.core.cmdReady = true ∧ p.rst = false →
      (tick L p k).core = { k.core with busy := some p.transfer } ∧ (tick L p k).core.cmdReady = false) ∧
    (p.cmdValid = false → k.core.cmdReady = true → p.rst = false → tick L p k = k)

/-- R50: while a command is in progress the values of `cmd_valid`, `ctl` and `wdata` have no effect. -/
def Obligations.BusyEngineIgnoresThePins : Prop :=
  ∀ (L : Config.Latency) (p q : Pins) (k : Clocked), k.core.cmdReady = false → p.rst = false → q.rst = false →
    tick L p k = tick L q k

/-- R110 and R112: a reset edge, at any time and during any command, leaves UNINIT, ready, no digest, and accepts nothing. -/
def Obligations.ResetWinsAtEveryEdge : Prop :=
  ∀ (L : Config.Latency) (p : Pins) (k : Clocked), p.rst = true →
    (tick L p k).core.phase = .uninit ∧ (tick L p k).core.busy = none ∧ (tick L p k).core.cmdReady = true ∧
    (tick L p k).core.digestValid = false ∧ k.accepts p = false ∧ (tick L p k).core.hostCycles = k.core.hostCycles

/-- R120 with R26 and R41: every accepted command, admitted or refused, completes after exactly its latency, which is at
least 1, with no action of the host but not resetting; until then `cmd_ready` and `digest_valid` are 0 and the registers
are those from before. That the engine is low for the whole latency is the model's reading (log 10). -/
def Obligations.EveryCommandCompletes : Prop :=
  ∀ (L : Config.Latency) (p : Pins) (k : Clocked) (ps : List Pins), k.accepts p = true → (∀ q ∈ ps, q.rst = false) →
    1 ≤ latency L p.transfer k.core.toHashState ∧
    (ps.length < latency L p.transfer k.core.toHashState →
      (tickAll L (p :: ps) k).core.cmdReady = false ∧ (tickAll L (p :: ps) k).core.digestValid = false ∧
      (tickAll L (p :: ps) k).core.toHashState = k.core.toHashState) ∧
    (ps.length = latency L p.transfer k.core.toHashState → (tickAll L (p :: ps) k).core.cmdReady = true)

/-- The clock-level machine refines the core machine: where the step answers a next state on an accepted command, the
clocked engine is in exactly that state once the command's latency has passed, whatever the latencies and whatever the
pins meanwhile, short of a reset. So each accepted command is one atomic transition (R6, R41), and one in progress takes
no other (R43). That the step is the whole transaction is the model's choice (log 1, DESIGN CHOICE), and so is that the
effect is applied when the latency ends (log 10, DESIGN CHOICE). -/
def Obligations.ClockedEngineRefinesTheStep : Prop :=
  ∀ (L : Config.Latency) (p : Pins) (k : Clocked) (t : State) (ps : List Pins), k.accepts p = true →
    step { k.core with hostCycles := p :: k.core.hostCycles } = .next t → (∀ q ∈ ps, q.rst = false) →
    ps.length = latency L p.transfer k.core.toHashState → tickAll L (p :: ps) k = ⟨t, 0⟩

/-- R100: after any command, one the model refuses among them, the block needs no reset. An INIT presented once the engine is
ready again overwrites the HashState and reaches ABSORB, whatever the refused command left behind. The unspecified
values stand for anything (log 5). -/
def Obligations.InitRecoversFromMisuse : Prop :=
  ∀ (L : Config.Latency) (p q : Pins) (k : Clocked) (ps qs : List Pins) (seed : Wide), k.accepts p = true →
    (∀ r ∈ ps ++ qs, r.rst = false) → ps.length = latency L p.transfer k.core.toHashState →
    q.rst = false → q.cmdValid = true → q.ctl = 0x10#6 → q.wdata = seed → qs.length = L.init + 1 →
    let e := tickAll L (p :: ps ++ q :: qs) k
    e.core.toHashState = hashInit seed ∧ e.core.phase = .absorb ∧ e.core.cmdReady = true ∧ e.core.digestValid = false
end

