-- ==== Sys2Proof/Laws/State.lean ====
section
/-! SUPPORT. What each named update of the state leaves in each field, so that no later proof unfolds a record update. -/

namespace Sys2Proof.Machine

@[simp] theorem State.withHash_self (s : State) : s.withHash s.toHashState = s := rfl
@[simp] theorem State.withHash_withHash (s : State) (g h : HashState) : (s.withHash g).withHash h = s.withHash h := rfl
@[simp] theorem State.withHash_hash (s : State) (h : HashState) : (s.withHash h).toHashState = h := rfl
@[simp] theorem State.withHash_phase (s : State) (h : HashState) : (s.withHash h).phase = s.phase := rfl
@[simp] theorem State.withHash_digest (s : State) (h : HashState) : (s.withHash h).digest = s.digest := rfl
@[simp] theorem State.withHash_busy (s : State) (h : HashState) : (s.withHash h).busy = s.busy := rfl
@[simp] theorem State.withHash_draws (s : State) (h : HashState) : (s.withHash h).draws = s.draws := rfl
@[simp] theorem State.withHash_hostCycles (s : State) (h : HashState) : (s.withHash h).hostCycles = s.hostCycles := rfl

@[simp] theorem State.withLanes_lanes (s : State) (l : Lanes) : (s.withLanes l).toLanes = l := rfl
@[simp] theorem State.withLanes_pending (s : State) (l : Lanes) : (s.withLanes l).pending = s.pending := rfl
@[simp] theorem State.withLanes_totalLength (s : State) (l : Lanes) : (s.withLanes l).totalLength = s.totalLength := rfl
@[simp] theorem State.withLanes_phase (s : State) (l : Lanes) : (s.withLanes l).phase = s.phase := rfl
@[simp] theorem State.withLanes_digest (s : State) (l : Lanes) : (s.withLanes l).digest = s.digest := rfl
@[simp] theorem State.withLanes_busy (s : State) (l : Lanes) : (s.withLanes l).busy = s.busy := rfl
@[simp] theorem State.withLanes_draws (s : State) (l : Lanes) : (s.withLanes l).draws = s.draws := rfl
@[simp] theorem State.withLanes_hostCycles (s : State) (l : Lanes) : (s.withLanes l).hostCycles = s.hostCycles := rfl

@[simp] theorem State.unspecified_phase (s : State) : s.unspecified.phase = s.phase := rfl
@[simp] theorem State.unspecified_busy (s : State) : s.unspecified.busy = s.busy := rfl
@[simp] theorem State.unspecified_draws (s : State) : s.unspecified.draws = s.draws + 7 := rfl
@[simp] theorem State.unspecified_hostCycles (s : State) : s.unspecified.hostCycles = s.hostCycles := rfl

@[simp] theorem State.applyReset_phase (s : State) : s.applyReset.phase = .uninit := rfl
@[simp] theorem State.applyReset_busy (s : State) : s.applyReset.busy = none := rfl
@[simp] theorem State.applyReset_draws (s : State) : s.applyReset.draws = s.draws + 7 := rfl
@[simp] theorem State.applyReset_hostCycles (s : State) : s.applyReset.hostCycles = s.hostCycles := rfl
@[simp] theorem State.applyReset_hash (s : State) : s.applyReset.toHashState = s.unspecified.toHashState := rfl

@[simp] theorem State.afterRefused_busy (s : State) : s.afterRefused.busy = none := rfl
@[simp] theorem State.afterRefused_draws (s : State) : s.afterRefused.draws = s.draws + 7 := rfl
@[simp] theorem State.afterRefused_hostCycles (s : State) : s.afterRefused.hostCycles = s.hostCycles := rfl

@[simp] theorem State.reset_phase : State.reset.phase = .uninit := rfl
@[simp] theorem State.reset_busy : State.reset.busy = none := rfl
@[simp] theorem State.reset_hostCycles : State.reset.hostCycles = [] := rfl

@[simp] theorem State.withFetchWord_busy (s : State) (n w : Nat) : (s.withFetchWord n w).busy = none := rfl
@[simp] theorem State.withFetchWord_hash (s : State) (n w : Nat) : (s.withFetchWord n w).toHashState = s.toHashState := rfl
@[simp] theorem State.withFetchWord_phase (s : State) (n w : Nat) : (s.withFetchWord n w).phase = s.phase := rfl
@[simp] theorem State.withFetchWord_digest (s : State) (n w : Nat) : (s.withFetchWord n w).digest = s.digest := rfl
@[simp] theorem State.withFetchWord_draws (s : State) (n w : Nat) : (s.withFetchWord n w).draws = s.draws := rfl

@[simp] theorem hashInit_v0 (seed : Wide) : (hashInit seed).v0 = initConst.v0 ^^^ seedK0 seed := rfl
@[simp] theorem hashInit_v1 (seed : Wide) : (hashInit seed).v1 = initConst.v1 ^^^ seedK1 seed := rfl
@[simp] theorem hashInit_v2 (seed : Wide) : (hashInit seed).v2 = initConst.v2 ^^^ seedK0 seed := rfl
@[simp] theorem hashInit_v3 (seed : Wide) : (hashInit seed).v3 = initConst.v3 ^^^ seedK1 seed := rfl
@[simp] theorem hashInit_pending (seed : Wide) : (hashInit seed).pending = 0#64 := rfl
@[simp] theorem hashInit_totalLength (seed : Wide) : (hashInit seed).totalLength = 0#64 := rfl

/-- The outputs look at `phase`, `busy` and `digest` only (10_state.md R15, R25). -/
theorem State.outputs_congr (s t : State) (hp : s.phase = t.phase) (hb : s.busy = t.busy) (hd : s.digest = t.digest) :
    s.outputs = t.outputs := by
  simp [State.outputs, State.cmdReady, State.digestOut, State.digestValid, hp, hb, hd]

end Sys2Proof.Machine
end

