-- ==== Sys2Proof/Laws/Exec.lean ====
section
/-! SUPPORT. One lemma for each shared operation and each meaning: everything it can answer. Provers cite these and do
not unfold the meanings. -/

namespace Sys2Proof.Machine

theorem admitInAbsorb_absorb {s t : State} (h : s.phase = .absorb) : admitInAbsorb s t = .next t := by
  simp [admitInAbsorb, h]

theorem admitInAbsorb_cases (s t : State) :
    (s.phase = .uninit ∧ admitInAbsorb s t = .refused .uninitialised) ∨
    (s.phase = .absorb ∧ admitInAbsorb s t = .next t) ∨
    (s.phase = .done ∧ admitInAbsorb s t = .refused .finalized) := by
  cases h : s.phase <;> simp [admitInAbsorb, h]

theorem execInit_eq (seed : Wide) (s : State) :
    execInit seed s = .next { s.withHash (hashInit seed) with
      phase := .absorb, digest := Config.unspecWord s.draws, draws := s.draws + 1 } := rfl

theorem execAppend_absorb {n : BitVec 4} {w : Wide} {s : State} (hn : n.toNat ≤ 8) (hp : s.phase = .absorb) :
    execAppend n w s = .next (s.withHash (hashAppend n.toNat w s.toHashState)) := by
  simp [execAppend, hn, admitInAbsorb_absorb hp]

theorem execFinalize_absorb {s : State} (hp : s.phase = .absorb) :
    execFinalize s = .next { s.withLanes (finalLanes s.toHashState) with
      phase := .done, digest := foldLanes (finalLanes s.toHashState) } := by
  simp [execFinalize, admitInAbsorb_absorb hp]

/-- Everything a command can answer when it answers a next state. -/
theorem exec_next_cases {i : Instr} {s t : State} (h : exec i s = .next t) :
    (∃ seed, i = .init seed ∧ t = { s.withHash (hashInit seed) with
      phase := .absorb, digest := Config.unspecWord s.draws, draws := s.draws + 1 }) ∨
    (∃ n w, i = .append n w ∧ n.toNat ≤ 8 ∧ s.phase = .absorb ∧
      t = s.withHash (hashAppend n.toNat w s.toHashState)) ∨
    (i = .finalize ∧ s.phase = .absorb ∧ t = { s.withLanes (finalLanes s.toHashState) with
      phase := .done, digest := foldLanes (finalLanes s.toHashState) }) := by
  cases i with
  | init seed =>
    refine .inl ⟨seed, rfl, ?_⟩
    simpa [exec, execInit] using h.symm
  | append n w =>
    refine .inr (.inl ⟨n, w, rfl, ?_⟩)
    by_cases hn : n.toNat ≤ 8
    · cases hp : s.phase <;> simp_all [exec, execAppend, admitInAbsorb]
    · simp [exec, execAppend, hn] at h
  | finalize =>
    refine .inr (.inr ⟨rfl, ?_⟩)
    cases hp : s.phase <;> simp_all [exec, execFinalize, admitInAbsorb]

/-- What a command does is what the phase table says (10_state.md R22), for every well-formed command. -/
theorem exec_by_table {i : Instr} (hw : i.wf = true) (s : State) :
    match phaseTable s.phase i with
    | .ok p => ∃ t, exec i s = .next t ∧ t.phase = p
    | .error r => exec i s = .refused r := by
  cases i <;> cases hp : s.phase <;>
    simp_all [phaseTable, exec, execInit, execAppend, execFinalize, admitInAbsorb, Instr.wf]

/-- No command touches `busy` or the host's cycles. -/
theorem exec_frame {i : Instr} {s t : State} (h : exec i s = .next t) :
    t.busy = s.busy ∧ t.hostCycles = s.hostCycles := by
  obtain ⟨_, _, rfl⟩ | ⟨_, _, _, _, _, rfl⟩ | ⟨_, _, rfl⟩ := exec_next_cases h <;> exact ⟨rfl, rfl⟩

/-- No command looks at the host's cycles. -/
theorem exec_hostCycles (i : Instr) (s : State) (r : List Pins) :
    exec i { s with hostCycles := r } =
      match exec i s with
      | .next t => .next { t with hostCycles := r }
      | .fault f => .fault f
      | .refused x => .refused x := by
  cases i with
  | init seed => rfl
  | append n w =>
    by_cases hn : n.toNat ≤ 8
    · cases hp : s.phase <;> simp [exec, execAppend, hn, admitInAbsorb, hp]; rfl
    · simp [exec, execAppend, hn]
  | finalize => cases hp : s.phase <;> simp [exec, execFinalize, admitInAbsorb, hp]; rfl

/-- The counter after a beat, whether it absorbs a word or not (10_state.md R18). -/
theorem hashAppend_totalLength (n : Nat) (w : Wide) (h : HashState) :
    (hashAppend n w h).totalLength = add64 h.totalLength (BitVec.ofNat 64 n) := by
  simp only [hashAppend]
  split <;> rfl

theorem runTransfer_ok {c : Transfer} {i : Instr} (h : decode c = .ok i) (s : State) : runTransfer c s = exec i s := by
  simp [runTransfer, h]

theorem runTransfer_next {c : Transfer} {s t : State} (h : runTransfer c s = .next t) :
    ∃ i, decode c = .ok i ∧ exec i s = .next t := by
  unfold runTransfer at h
  split at h
  · exact ⟨_, ‹_›, h⟩
  · simp at h

/-- Everything the step can do when it answers a next state. -/
theorem step_next_cases {s t : State} (h : step s = .next t) :
    (∃ c i, s.busy = some c ∧ decode c = .ok i ∧ exec i { s with busy := none } = .next t) ∨
    (s.busy = none ∧ s.hostCycles = [] ∧ t = s) ∨
    (∃ p rest, s.busy = none ∧ s.hostCycles = p :: rest ∧ p.rst = true ∧
      t = ({ s with hostCycles := rest } : State).applyReset) ∨
    (∃ p rest, s.busy = none ∧ s.hostCycles = p :: rest ∧ p.rst = false ∧ p.cmdValid = false ∧
      t = { s with hostCycles := rest }) ∨
    (∃ p rest i, s.busy = none ∧ s.hostCycles = p :: rest ∧ p.rst = false ∧ p.cmdValid = true ∧
      decode p.transfer = .ok i ∧ exec i { s with hostCycles := rest } = .next t) := by
  unfold step at h
  split at h
  · obtain ⟨i, hd, he⟩ := runTransfer_next h
    exact .inl ⟨_, i, ‹_›, hd, he⟩
  · split at h
    · refine .inr (.inl ⟨‹_›, ‹_›, ?_⟩)
      simpa using h.symm
    · unfold readyEdge at h
      split at h
      · refine .inr (.inr (.inl ⟨_, _, ‹_›, ‹_›, ‹_›, ?_⟩))
        simpa using h.symm
      · split at h
        · obtain ⟨i, hd, he⟩ := runTransfer_next h
          exact .inr (.inr (.inr (.inr ⟨_, _, i, ‹_›, ‹_›, by simp_all, ‹_›, hd, he⟩)))
        · refine .inr (.inr (.inr (.inl ⟨_, _, ‹_›, ‹_›, by simp_all, by simp_all, ?_⟩)))
          simpa using h.symm

theorem core_run_zero (s : State) : Host.Core.run core 0 s = .next s := rfl

theorem run_next (M : Host.Core) {s t : M.State} (k : Nat) (h : M.step s = .next t) : M.run (k + 1) s = M.run k t := by
  rw [Host.Core.run, h]

theorem run_refused (M : Host.Core) {s : M.State} {r : M.Refusal} (k : Nat) (h : M.step s = .refused r) :
    M.run (k + 1) s = .refused r := by
  rw [Host.Core.run, h]

/-- A run of the machine goes on from the state a step answers. -/
theorem core_run_next {s t : State} (k : Nat) (h : step s = .next t) :
    Host.Core.run core (k + 1) s = Host.Core.run core k t :=
  run_next core k h

/-- A run of the machine ends at a refusal. -/
theorem core_run_refused {s : State} {r : Refusal} (k : Nat) (h : step s = .refused r) :
    Host.Core.run core (k + 1) s = .refused r :=
  run_refused core k h

/-- What one clock edge does, case by case. -/
theorem tick_cases (L : Config.Latency) (p : Pins) (k : Clocked) :
    (p.rst = true ∧ tick L p k = ⟨k.core.applyReset, 0⟩) ∨
    (∃ c n, p.rst = false ∧ k.core.busy = some c ∧ k.left = n + 1 ∧ tick L p k = ⟨k.core, n⟩) ∨
    (∃ c, p.rst = false ∧ k.core.busy = some c ∧ k.left = 0 ∧
      tick L p k = ⟨completed c { k.core with busy := none }, 0⟩) ∨
    (p.rst = false ∧ k.core.busy = none ∧ p.cmdValid = true ∧
      tick L p k = ⟨{ k.core with busy := some p.transfer }, extraCycles L p.transfer k.core.toHashState⟩) ∨
    (p.rst = false ∧ k.core.busy = none ∧ p.cmdValid = false ∧ tick L p k = k) := by
  cases hr : p.rst
  · cases hb : k.core.busy with
    | some c =>
      cases hl : k.left with
      | zero => exact .inr (.inr (.inl ⟨c, rfl, rfl, rfl, by simp [tick, hr, hb, hl]⟩))
      | succ n => exact .inr (.inl ⟨c, n, rfl, rfl, rfl, by simp [tick, hr, hb, hl]⟩)
    | none =>
      cases hv : p.cmdValid
      · exact .inr (.inr (.inr (.inr ⟨rfl, rfl, rfl, by simp [tick, hr, hb, hv]⟩)))
      · exact .inr (.inr (.inr (.inl ⟨rfl, rfl, rfl, by simp [tick, hr, hb, hv]⟩)))
  · exact .inl ⟨rfl, by simp [tick, hr]⟩

end Sys2Proof.Machine
end

