-- ==== Sys2Proof/Laws/Clock.lean ====
section
/-! SUPPORT. Runs of clock edges: concatenation, waiting while busy, and the accepting edge (30_encoding.md R49, R50). -/

namespace Sys2Proof.Machine

theorem tickAll_append (L : Config.Latency) (ps qs : List Pins) (k : Clocked) :
    tickAll L (ps ++ qs) k = tickAll L qs (tickAll L ps k) := by
  induction ps generalizing k with
  | nil => rfl
  | cons p ps ih => exact ih _

theorem accepts_iff (p : Pins) (k : Clocked) :
    k.accepts p = true ↔ p.cmdValid = true ∧ k.core.busy = none ∧ p.rst = false := by
  simp [Clocked.accepts, State.cmdReady, and_assoc]

theorem tick_accepts {L : Config.Latency} {p : Pins} {k : Clocked} (h : k.accepts p = true) :
    tick L p k = ⟨{ k.core with busy := some p.transfer }, extraCycles L p.transfer k.core.toHashState⟩ := by
  obtain ⟨hv, hb, hr⟩ := (accepts_iff p k).mp h
  simp [tick, hr, hb, hv]

/-- While edges are left, a busy engine only counts them. -/
theorem tickAll_busy (L : Config.Latency) (ps : List Pins) {k : Clocked} {c : Transfer} (hb : k.core.busy = some c)
    (hr : ∀ q ∈ ps, q.rst = false) (hl : ps.length ≤ k.left) : tickAll L ps k = ⟨k.core, k.left - ps.length⟩ := by
  induction ps generalizing k with
  | nil => rfl
  | cons p ps ih =>
    simp only [List.length_cons] at hl
    obtain ⟨n, hn⟩ : ∃ n, k.left = n + 1 := ⟨k.left - 1, by omega⟩
    have ht : tick L p k = ⟨k.core, n⟩ := by simp [tick, hr p (by simp), hb, hn]
    have hs := ih (k := ⟨k.core, n⟩) hb (fun q hq => hr q (by simp [hq])) (by simp only; omega)
    rw [tickAll, ht, hs, hn]
    simp

/-- A completed command leaves a ready engine. -/
theorem completed_busy (c : Transfer) {s : State} (hb : s.busy = none) : (completed c s).busy = none := by
  unfold completed
  split
  · next h =>
    obtain ⟨i, -, he⟩ := runTransfer_next h
    rw [(exec_frame he).1, hb]
  · next f _ => cases f
  · rfl

end Sys2Proof.Machine
end

