-- ==== Sys2Proof/Laws/Operands.lean ====
section
/-! SUPPORT. The packer, the shifter and the merge as arithmetic on little-endian byte lists (20_memory.md R35, R37;
41_append.md R68 to R70). -/

namespace Sys2Proof.Machine

theorem fill_eq (t : Word) : fill t = t.toNat % 8 := by
  simp [fill, BitVec.extractLsb'_toNat]

theorem fill_lt (t : Word) : fill t < 8 := by
  rw [fill_eq]; omega

theorem fill_add (t : Word) (n : Nat) : fill (add64 t (BitVec.ofNat 64 n)) = (fill t + n) % 8 := by
  simp only [fill_eq, add64, BitVec.toNat_ofNat]
  omega

/-- The number a byte list is, the first byte least significant. -/
def leVal : List Byte → Nat
  | [] => 0
  | b :: bs => b.toNat + 256 * leVal bs

@[simp] theorem leVal_nil : leVal [] = 0 := rfl
@[simp] theorem leVal_cons (b : Byte) (bs : List Byte) : leVal (b :: bs) = b.toNat + 256 * leVal bs := rfl

theorem leVal_lt (bs : List Byte) : leVal bs < 256 ^ bs.length := by
  induction bs with
  | nil => simp
  | cons b bs ih =>
    have := b.isLt
    simp only [leVal_cons, List.length_cons, Nat.pow_succ]
    omega

theorem leVal_append (xs ys : List Byte) : leVal (xs ++ ys) = leVal xs + 256 ^ xs.length * leVal ys := by
  induction xs with
  | nil => simp
  | cons b xs ih =>
    simp only [List.cons_append, leVal_cons, ih, List.length_cons, Nat.pow_succ]
    ring

theorem leVal_take_drop (bs : List Byte) (n : Nat) :
    leVal (bs.take n) = leVal bs % 256 ^ n ∧ leVal (bs.drop n) = leVal bs / 256 ^ n := by
  rcases Nat.lt_or_ge bs.length n with h | h
  · have hlt : leVal bs < 256 ^ n :=
      Nat.lt_of_lt_of_le (leVal_lt bs) (Nat.pow_le_pow_right (by decide) (Nat.le_of_lt h))
    simp [List.take_of_length_le (Nat.le_of_lt h), List.drop_of_length_le (Nat.le_of_lt h),
      Nat.mod_eq_of_lt hlt, Nat.div_eq_of_lt hlt]
  · have e := leVal_append (bs.take n) (bs.drop n)
    have hl : (bs.take n).length = n := by simp [h]
    have hlt := leVal_lt (bs.take n)
    rw [List.take_append_drop, hl] at e
    rw [hl] at hlt
    rw [e, Nat.add_mul_mod_self_left, Nat.mod_eq_of_lt hlt, Nat.add_mul_div_left _ _ (by positivity),
      Nat.div_eq_of_lt hlt]
    simp

/-- An OR of a number below `2^i` with one above bit `i` is their sum. -/
theorem or_shift_eq_add {a : Nat} (b i : Nat) (h : a < 2 ^ i) : a ||| (b * 2 ^ i) = a + b * 2 ^ i := by
  have := Nat.two_pow_add_eq_or_of_lt h b
  rw [Nat.mul_comm] at this
  rw [Nat.or_comm, ← this, Nat.add_comm]

theorem packBytes_toNat (bs : List Byte) : (packBytes bs).toNat = leVal bs % 2 ^ 64 := by
  induction bs with
  | nil => simp [packBytes]
  | cons b bs ih =>
    have hb := b.isLt
    have hor := or_shift_eq_add (a := b.toNat) (leVal bs % 2 ^ 56) 8 (by omega)
    simp only [packBytes, BitVec.toNat_or, BitVec.toNat_setWidth, BitVec.toNat_shiftLeft, ih, Nat.shiftLeft_eq,
      leVal_cons]
    rw [Nat.mod_eq_of_lt (show b.toNat < 2 ^ 64 by omega),
      show leVal bs % 2 ^ 64 * 2 ^ 8 % 2 ^ 64 = leVal bs % 2 ^ 56 * 2 ^ 8 by omega, hor]
    omega

theorem bytemask_toNat {n : Nat} (h : n ≤ 8) : (bytemask n).toNat = 256 ^ n - 1 := by
  interval_cases n <;> decide

theorem beat_toNat {n : Nat} (h : n ≤ 8) (w : Wide) : (beat n w).toNat = w.toNat % 256 ^ n := by
  have e : (256 : Nat) ^ n = 2 ^ (8 * n) := by rw [show (256 : Nat) = 2 ^ 8 by rfl, ← Nat.pow_mul]
  have hd : (2 : Nat) ^ (8 * n) ∣ 2 ^ 64 := Nat.pow_dvd_pow 2 (by omega)
  simp only [beat, BitVec.toNat_and, bytemask_toNat h, BitVec.extractLsb'_toNat, Nat.shiftRight_zero, e,
    Nat.and_two_pow_sub_one_eq_mod]
  exact Nat.mod_mod_of_dvd _ hd

theorem leVal_beatBytes (n : Nat) (w : Wide) : leVal (beatBytes n w) = w.toNat % 256 ^ n := by
  induction n with
  | zero => simp [beatBytes, Nat.mod_one]
  | succ n ih =>
    have e : (256 : Nat) ^ n = 2 ^ (8 * n) := by rw [show (256 : Nat) = 2 ^ 8 by rfl, ← Nat.pow_mul]
    have hb : (byteLane w n).toNat = w.toNat / 256 ^ n % 256 := by
      simp [byteLane, BitVec.extractLsb'_toNat, Nat.shiftRight_eq_div_pow, e]
    have hs : beatBytes (n + 1) w = beatBytes n w ++ [byteLane w n] := by
      simp [beatBytes, List.range_succ]
    have hl : (beatBytes n w).length = n := by simp [beatBytes]
    rw [hs, leVal_append, ih, hl]
    simp only [leVal_cons, leVal_nil, hb, Nat.mul_zero, Nat.add_zero]
    rw [Nat.pow_succ, Nat.mod_mul]

@[simp] theorem beatBytes_length (n : Nat) (w : Wide) : (beatBytes n w).length = n := by simp [beatBytes]

/-- The masked beat is the packing of the beat's bytes (R68). -/
theorem beat_eq_packBytes {n : Nat} (h : n ≤ 8) (w : Wide) : beat n w = packBytes (beatBytes n w) := by
  apply BitVec.eq_of_toNat_eq
  have hd : (256 : Nat) ^ n ≤ 2 ^ 64 := by
    calc (256 : Nat) ^ n ≤ 256 ^ 8 := Nat.pow_le_pow_right (by decide) h
      _ = 2 ^ 64 := by norm_num
  have hlt : w.toNat % 256 ^ n < 256 ^ n := Nat.mod_lt _ (by positivity)
  rw [beat_toNat h, packBytes_toNat, leVal_beatBytes, Nat.mod_eq_of_lt (Nat.lt_of_lt_of_le hlt hd)]

theorem byteLane_toNat (w : Wide) (n : Nat) : (byteLane w n).toNat = w.toNat / 256 ^ n % 256 := by
  have e : (256 : Nat) ^ n = 2 ^ (8 * n) := by rw [show (256 : Nat) = 2 ^ 8 by rfl, ← Nat.pow_mul]
  simp [byteLane, BitVec.extractLsb'_toNat, Nat.shiftRight_eq_div_pow, e]

/-- Byte `i` of the number a list is. -/
theorem leVal_byte (bs : List Byte) (i : Nat) : leVal bs / 256 ^ i % 256 = (bs.getD i 0#8).toNat := by
  induction bs generalizing i with
  | nil => simp
  | cons b bs ih =>
    have := b.isLt
    cases i with
    | zero => simp; omega
    | succ i =>
      rw [leVal_cons, Nat.pow_succ, Nat.mul_comm (256 ^ i), ← Nat.div_div_eq_div_mul,
        show (b.toNat + 256 * leVal bs) / 256 = leVal bs by omega, ih]
      simp

/-- The operand the notation of R60 drives for at most eight bytes is the number they are. -/
theorem packBytes_wide_toNat (bs : List Byte) (h : bs.length ≤ 8) :
    ((packBytes bs).setWidth 128 : Wide).toNat = leVal bs := by
  have hl : leVal bs < 2 ^ 64 := Nat.lt_of_lt_of_le (leVal_lt bs) (by
    calc (256 : Nat) ^ bs.length ≤ 256 ^ 8 := Nat.pow_le_pow_right (by decide) h
      _ = 2 ^ 64 := by norm_num)
  simp only [BitVec.toNat_setWidth, packBytes_toNat]
  omega

/-- The bytes on the lanes of that operand are the bytes. -/
theorem beatBytes_packBytes (bs : List Byte) (h : bs.length ≤ 8) :
    beatBytes bs.length ((packBytes bs).setWidth 128) = bs := by
  apply List.ext_getElem (by simp)
  intro i h1 h2
  apply BitVec.eq_of_toNat_eq
  simp only [beatBytes, List.getElem_map, List.getElem_range]
  rw [byteLane_toNat, packBytes_wide_toNat _ h, leVal_byte]
  simp [h2]

theorem packWide_toNat (bs : List Byte) (h : bs.length ≤ 16) : (packWide bs).toNat = leVal bs := by
  induction bs with
  | nil => simp [packWide]
  | cons b bs ih =>
    have hb := b.isLt
    simp only [List.length_cons] at h
    have hl : leVal bs < 2 ^ 120 := Nat.lt_of_lt_of_le (leVal_lt bs) (by
      calc (256 : Nat) ^ bs.length ≤ 256 ^ 15 := Nat.pow_le_pow_right (by decide) (by omega)
        _ = 2 ^ 120 := by norm_num)
    have hor := or_shift_eq_add (a := b.toNat) (leVal bs) 8 (by omega)
    simp only [packWide, BitVec.toNat_or, BitVec.toNat_setWidth, BitVec.toNat_shiftLeft, ih (by omega),
      Nat.shiftLeft_eq, leVal_cons]
    rw [Nat.mod_eq_of_lt (by omega), Nat.mod_eq_of_lt (by omega), hor]
    omega

/-- The bytes of a word below byte `k`. -/
def wordBytes (k : Nat) (p : Word) : List Byte := beatBytes k (p.setWidth 128)

/-- A tidy `pending` is the packing of the `k` bytes it holds (10_state.md R17, R20). -/
theorem tidy_pending {h : HashState} (ht : h.Tidy) :
    h.pending.toNat = leVal (wordBytes (fill h.totalLength) h.pending) := by
  have hk := fill_lt h.totalLength
  have hp := h.pending.isLt
  have e : (256 : Nat) ^ fill h.totalLength = 2 ^ (8 * fill h.totalLength) := by
    rw [show (256 : Nat) = 2 ^ 8 by rfl, ← Nat.pow_mul]
  have hz : h.pending.toNat / 2 ^ (8 * fill h.totalLength) = 0 := by
    have := congrArg BitVec.toNat ht
    simpa [BitVec.toNat_ushiftRight, Nat.shiftRight_eq_div_pow] using this
  have hlt : h.pending.toNat < 2 ^ (8 * fill h.totalLength) := by
    rcases Nat.div_eq_zero_iff.mp hz with h0 | h0
    · exact absurd h0 (by positivity)
    · exact h0
  rw [wordBytes, leVal_beatBytes, e]
  simp only [BitVec.toNat_setWidth]
  rw [Nat.mod_eq_of_lt (show h.pending.toNat < 2 ^ 128 by omega), Nat.mod_eq_of_lt hlt]

/-- The same, with the bytes read off the register. -/
theorem tidy_eq_packBytes {h : HashState} (ht : h.Tidy) :
    h.pending = packBytes ((List.range (fill h.totalLength)).map fun j => h.pending.extractLsb' (8 * j) 8) := by
  have hk := fill_lt h.totalLength
  have e : (List.range (fill h.totalLength)).map (fun j => h.pending.extractLsb' (8 * j) 8)
      = wordBytes (fill h.totalLength) h.pending := by
    simp only [wordBytes, beatBytes]
    apply List.map_congr_left
    intro j hj
    simp only [List.mem_range] at hj
    apply BitVec.eq_of_getLsbD_eq
    intro i hi
    have h1 : 8 * j + i < 64 := by omega
    have h2 : 8 * j + i < 128 := by omega
    simp [byteLane, hi]
    omega
  rw [e]
  apply BitVec.eq_of_toNat_eq
  rw [packBytes_toNat, ← tidy_pending ht, Nat.mod_eq_of_lt h.pending.isLt]

/-- The converse: a packing of fewer than eight bytes at the right level is tidy. -/
theorem tidy_of_packBytes {h : HashState} {ps : List Byte} (hp : h.pending = packBytes ps)
    (hl : ps.length = fill h.totalLength) : h.Tidy := by
  have hk := fill_lt h.totalLength
  apply BitVec.eq_of_toNat_eq
  have hlt := leVal_lt ps
  have e : (256 : Nat) ^ ps.length = 2 ^ (8 * ps.length) := by
    rw [show (256 : Nat) = 2 ^ 8 by rfl, ← Nat.pow_mul]
  simp only [BitVec.toNat_ushiftRight, hp, packBytes_toNat, Nat.shiftRight_eq_div_pow, ← hl]
  rw [e] at hlt
  exact Nat.div_eq_of_lt (Nat.lt_of_le_of_lt (Nat.mod_le _ _) hlt)

/-- The merge (R70): with `ps` in `pending` and `qs` in the beat, `lo` packs the first eight bytes of `ps ++ qs` and `hi`
the ones after them. -/
theorem merge_packBytes {ps qs : List Byte} (hps : ps.length < 8) (hqs : qs.length ≤ 8) :
    mergeLo (packBytes ps) (shifted ps.length (packBytes qs)) = packBytes ((ps ++ qs).take 8) ∧
    mergeHi (shifted ps.length (packBytes qs)) = packBytes ((ps ++ qs).drop 8) := by
  obtain ⟨ht, hd⟩ := leVal_take_drop (ps ++ qs) 8
  have hv := leVal_append ps qs
  have hp := leVal_lt ps
  have hq := leVal_lt qs
  have hq8 : leVal qs < 2 ^ 64 := Nat.lt_of_lt_of_le hq (by
    calc (256 : Nat) ^ qs.length ≤ 256 ^ 8 := Nat.pow_le_pow_right (by decide) hqs
      _ = 2 ^ 64 := by norm_num)
  generalize hk : ps.length = k at *
  have e : (256 : Nat) ^ k = 2 ^ (8 * k) := by rw [show (256 : Nat) = 2 ^ 8 by rfl, ← Nat.pow_mul]
  have hp64 : leVal ps < 2 ^ 64 := Nat.lt_of_lt_of_le hp (by
    calc (256 : Nat) ^ k ≤ 256 ^ 8 := Nat.pow_le_pow_right (by decide) (by omega)
      _ = 2 ^ 64 := by norm_num)
  have hsplit : (2 : Nat) ^ 64 = 2 ^ (64 - 8 * k) * 2 ^ (8 * k) := by
    rw [← Nat.pow_add]; congr 1; omega
  have hsh : (shifted k (packBytes qs)).toNat = leVal qs * 2 ^ (8 * k) := by
    have h128 : leVal qs * 2 ^ (8 * k) < 2 ^ 128 := by
      have : (2 : Nat) ^ (8 * k) ≤ 2 ^ 64 := Nat.pow_le_pow_right (by decide) (by omega)
      calc leVal qs * 2 ^ (8 * k) < 2 ^ 64 * 2 ^ 64 := Nat.mul_lt_mul_of_lt_of_le hq8 this (by positivity)
        _ = 2 ^ 128 := by norm_num
    simp only [shifted, BitVec.toNat_shiftLeft, BitVec.toNat_setWidth, packBytes_toNat, Nat.shiftLeft_eq,
      Nat.mod_eq_of_lt hq8, Nat.mod_eq_of_lt (show leVal qs < 2 ^ 128 by omega), Nat.mod_eq_of_lt h128]
  rw [show (256 : Nat) ^ 8 = 2 ^ 64 by norm_num] at ht hd
  rw [e] at hv
  have hmod : leVal qs * 2 ^ (8 * k) % 2 ^ 64 = leVal qs % 2 ^ (64 - 8 * k) * 2 ^ (8 * k) := by
    rw [hsplit, Nat.mul_mod_mul_right]
  constructor
  · apply BitVec.eq_of_toNat_eq
    simp only [mergeLo, BitVec.toNat_or, packBytes_toNat, BitVec.extractLsb'_toNat, hsh, Nat.shiftRight_zero, ht,
      Nat.mod_mod, hv, Nat.mod_eq_of_lt hp64]
    rw [hmod, or_shift_eq_add _ _ (by rw [← e]; exact hp), ← hmod, Nat.mul_comm (2 ^ (8 * k))]
    have hlt : leVal ps + leVal qs * 2 ^ (8 * k) % 2 ^ 64 < 2 ^ 64 := by
      have h1 : leVal qs % 2 ^ (64 - 8 * k) + 1 ≤ 2 ^ (64 - 8 * k) := Nat.mod_lt _ (by positivity)
      have h2 := Nat.mul_le_mul_right (2 ^ (8 * k)) h1
      rw [← hsplit, Nat.add_mul, ← hmod] at h2
      rw [e] at hp
      omega
    rw [Nat.add_mod, Nat.mod_eq_of_lt hp64, Nat.mod_eq_of_lt hlt]
  · apply BitVec.eq_of_toNat_eq
    have hdiv : (leVal ps + leVal qs * 2 ^ (8 * k)) / 2 ^ 64 = leVal qs * 2 ^ (8 * k) / 2 ^ 64 := by
      rw [e] at hp
      rw [hsplit, Nat.mul_comm (2 ^ (64 - 8 * k)), ← Nat.div_div_eq_div_mul, ← Nat.div_div_eq_div_mul,
        Nat.add_mul_div_right _ _ (by positivity), Nat.div_eq_of_lt hp, Nat.zero_add,
        Nat.mul_div_cancel _ (by positivity)]
    simp only [mergeHi, BitVec.extractLsb'_toNat, hsh, packBytes_toNat, Nat.shiftRight_eq_div_pow, hd, hv,
      Nat.mul_comm (2 ^ (8 * k)), hdiv]

end Sys2Proof.Machine
end

