-- ==== Sys2Proof/Laws/PerInstr.lean ====
section
/-! SUPPORT. One family of statements made for each command: the encoded control word selects a row of the opcode table
(30_encoding.md R55). -/

namespace Sys2Proof.Laws.TableRow

/-- A well-formed command's control word selects a row of the table. -/
def Statement (i : Instr) : Prop := i.wf = true → ∃ r ∈ opcodeRows, r.selects (encode i).ctl = true

theorem init (seed : Wide) : Statement (.init seed) := by
  have key : ∃ r ∈ opcodeRows, r.selects 0x10#6 = true := by decide
  exact fun _ => key

theorem append (nbytes : BitVec 4) (wdata : Wide) : Statement (.append nbytes wdata) := by
  have key : ∀ n : BitVec 4, n.toNat ≤ 8 → ∃ r ∈ opcodeRows, r.selects (0b10#2 ++ n) = true := by decide
  exact fun h => key nbytes (by simpa [Instr.wf] using h)

theorem finalize : Statement .finalize := by
  have key : ∃ r ∈ opcodeRows, r.selects 0x30#6 = true := by decide
  exact fun _ => key

end Sys2Proof.Laws.TableRow
end

