-- ==== Sys2Proof/Laws/Round.lean ====
section
/-! SUPPORT. The laws of the round: addition, rotation, composition (42_mixing_round.md R83 to R87). -/

namespace Sys2Proof.Machine

theorem add64_eq (a b : Word) : add64 a b = a + b := by
  apply BitVec.eq_of_toNat_eq
  simp [add64, BitVec.toNat_add]

theorem add64_toNat (a b : Word) : (add64 a b).toNat = (a.toNat + b.toNat) % 2 ^ 64 := by
  simp [add64_eq, BitVec.toNat_add]

theorem rotl_eq_rotateLeft (x : Word) {b : Nat} (hb : b < 64) : rotl x b = x.rotateLeft b := by
  simp [rotl, BitVec.rotateLeft, BitVec.rotateLeftAux, Nat.mod_eq_of_lt hb]

/-- Bit `i` of the operand is bit `(i + b) mod 64` of the result (R86). -/
theorem rotl_getLsbD (x : Word) {b i : Nat} (hb : 0 < b) (hb' : b < 64) (hi : i < 64) :
    (rotl x b).getLsbD ((i + b) % 64) = x.getLsbD i := by
  rcases Nat.lt_or_ge (i + b) 64 with h | h
  · rw [Nat.mod_eq_of_lt h]
    have h0 : x.getLsbD (64 - b + (i + b)) = false := BitVec.getLsbD_of_ge _ _ (by omega)
    simp [rotl, h, h0, BitVec.getLsbD_eq_getElem hi]
  · have e : (i + b) % 64 = i + b - 64 := by omega
    have e2 : 64 - b + (i + b - 64) = i := by omega
    simp [rotl, e, e2]
    omega

theorem rounds_add (m n : Nat) (l : Lanes) : rounds (m + n) l = rounds n (rounds m l) := by
  induction m generalizing l with
  | zero => simp [rounds]
  | succ m ih => rw [Nat.succ_add]; exact ih (sipRound l)

@[simp] theorem roundUnit_false (l : Lanes) : roundUnit false l = rounds 2 l := rfl
@[simp] theorem roundUnit_true (l : Lanes) : roundUnit true l = rounds 4 l := rfl

end Sys2Proof.Machine
end

