-- ==== Sys2Proof/Laws/Stream.lean ====
section
/-! SUPPORT. One beat, and the source's `append_ref`, as the same function of the bytes held and the bytes delivered
(41_append.md R72, R77); how words and tails of a stream behave under concatenation. -/

namespace Sys2Proof.Machine

theorem le64_eq_packBytes (b0 b1 b2 b3 b4 b5 b6 b7 : Byte) :
    le64 b0 b1 b2 b3 b4 b5 b6 b7 = packBytes [b0, b1, b2, b3, b4, b5, b6, b7] := by
  simp only [le64, packBytes, BitVec.shiftLeft_or_distrib, ← BitVec.shiftLeft_add, BitVec.zero_shiftLeft,
    BitVec.or_zero, BitVec.or_assoc, Nat.reduceAdd]

theorem fullWords_short {l : List Byte} (h : l.length < 8) : fullWords l = [] := by
  match l, h with
  | [], _ | [_], _ | [_, _], _ | [_, _, _], _ | [_, _, _, _], _ | [_, _, _, _, _], _ | [_, _, _, _, _, _], _
  | [_, _, _, _, _, _, _], _ => rfl

theorem tailBytes_short {l : List Byte} (h : l.length < 8) : tailBytes l = l := by
  match l, h with
  | [], _ | [_], _ | [_, _], _ | [_, _, _], _ | [_, _, _, _], _ | [_, _, _, _, _], _ | [_, _, _, _, _, _], _
  | [_, _, _, _, _, _, _], _ => rfl

/-- A list of at least eight bytes is eight bytes and a rest. -/
theorem eight_of_le {l : List Byte} (h : 8 ≤ l.length) :
    ∃ b0 b1 b2 b3 b4 b5 b6 b7 rest, l = b0 :: b1 :: b2 :: b3 :: b4 :: b5 :: b6 :: b7 :: rest := by
  match l, h with
  | b0 :: b1 :: b2 :: b3 :: b4 :: b5 :: b6 :: b7 :: rest, _ => exact ⟨b0, b1, b2, b3, b4, b5, b6, b7, rest, rfl⟩

theorem fullWords_eight {l : List Byte} (h : 8 ≤ l.length) :
    fullWords l = packBytes (l.take 8) :: fullWords (l.drop 8) := by
  obtain ⟨b0, b1, b2, b3, b4, b5, b6, b7, rest, rfl⟩ := eight_of_le h
  simp [fullWords, le64_eq_packBytes]

theorem tailBytes_eight {l : List Byte} (h : 8 ≤ l.length) : tailBytes l = tailBytes (l.drop 8) := by
  obtain ⟨b0, b1, b2, b3, b4, b5, b6, b7, rest, rfl⟩ := eight_of_le h
  simp [tailBytes]

theorem tailBytes_length (l : List Byte) : (tailBytes l).length = l.length % 8 := by
  induction h : l.length using Nat.strong_induction_on generalizing l with
  | _ n ih =>
    rcases Nat.lt_or_ge l.length 8 with h8 | h8
    · rw [tailBytes_short h8, ← h, Nat.mod_eq_of_lt h8]
    · have hd : (l.drop 8).length = n - 8 := by simp [h]
      rw [tailBytes_eight h8, ih (n - 8) (by omega) _ hd]
      omega

theorem fullWords_append (xs ys : List Byte) :
    fullWords (xs ++ ys) = fullWords xs ++ fullWords (tailBytes xs ++ ys) := by
  induction h : xs.length using Nat.strong_induction_on generalizing xs with
  | _ n ih =>
    rcases Nat.lt_or_ge xs.length 8 with h8 | h8
    · rw [fullWords_short h8, tailBytes_short h8, List.nil_append]
    · obtain ⟨b0, b1, b2, b3, b4, b5, b6, b7, rest, rfl⟩ := eight_of_le h8
      simp only [List.length_cons] at h
      simp only [List.cons_append, fullWords, tailBytes, ih rest.length (by omega) rest rfl]

theorem tailBytes_append (xs ys : List Byte) : tailBytes (xs ++ ys) = tailBytes (tailBytes xs ++ ys) := by
  induction h : xs.length using Nat.strong_induction_on generalizing xs with
  | _ n ih =>
    rcases Nat.lt_or_ge xs.length 8 with h8 | h8
    · rw [tailBytes_short h8]
    · obtain ⟨b0, b1, b2, b3, b4, b5, b6, b7, rest, rfl⟩ := eight_of_le h8
      simp only [List.length_cons] at h
      simp only [List.cons_append, tailBytes, ih rest.length (by omega) rest rfl]

theorem compressAll_append (ws vs : List Word) (l : Lanes) :
    compressAll (ws ++ vs) l = compressAll vs (compressAll ws l) := by
  induction ws generalizing l with
  | nil => rfl
  | cons w ws ih => exact ih _

/-- What delivering `qs` to a HashState whose `pending` holds `ps` makes of it. -/
def delivered (ps qs : List Byte) (h : HashState) : HashState where
  toLanes := compressAll (fullWords (ps ++ qs)) h.toLanes
  pending := packBytes (tailBytes (ps ++ qs))
  totalLength := h.totalLength + BitVec.ofNat 64 qs.length

/-- One beat (R72) delivers its bytes. -/
theorem hashAppend_delivers {h : HashState} {ps : List Byte} {n : Nat} (w : Wide) (hp : h.pending = packBytes ps)
    (hl : ps.length = fill h.totalLength) (hn : n ≤ 8) : hashAppend n w h = delivered ps (beatBytes n w) h := by
  have hk := fill_lt h.totalLength
  have hq : (beatBytes n w).length ≤ 8 := by simpa using hn
  obtain ⟨hlo, hhi⟩ := merge_packBytes (ps := ps) (by omega) hq
  have hlen : (ps ++ beatBytes n w).length = fill h.totalLength + n := by simp [hl]
  rw [hl] at hlo hhi
  unfold hashAppend delivered
  simp only [beat_eq_packBytes hn, hp, hlo, hhi, add64_eq, beatBytes_length, fires]
  by_cases hf : 8 ≤ fill h.totalLength + n
  · have h8 : 8 ≤ (ps ++ beatBytes n w).length := by omega
    have hd : ((ps ++ beatBytes n w).drop 8).length < 8 := by rw [List.length_drop]; omega
    simp only [hf, decide_true, if_true, fullWords_eight h8, tailBytes_eight h8, fullWords_short hd,
      tailBytes_short hd, compressAll]
  · have h8 : (ps ++ beatBytes n w).length < 8 := by omega
    simp only [hf, decide_false, fullWords_short h8, tailBytes_short h8, compressAll,
      List.take_of_length_le (Nat.le_of_lt h8)]
    simp

theorem delivered_fill {h : HashState} {ps qs : List Byte} (hl : ps.length = fill h.totalLength) :
    (tailBytes (ps ++ qs)).length = fill (delivered ps qs h).totalLength := by
  rw [tailBytes_length, delivered, ← add64_eq, fill_add, List.length_append, hl]

/-- Delivering in two pieces is delivering the concatenation. -/
theorem delivered_delivered (ps qs rs : List Byte) (h : HashState) :
    delivered (tailBytes (ps ++ qs)) rs (delivered ps qs h) = delivered ps (qs ++ rs) h := by
  simp only [delivered, ← compressAll_append, ← fullWords_append, ← tailBytes_append, List.append_assoc,
    List.length_append, BitVec.add_assoc, BitVec.ofNat_add]

theorem packBytes_snoc {ps : List Byte} (b : Byte) (h : ps.length < 8) :
    packBytes ps ||| (b.setWidth 64 <<< (8 * ps.length)) = packBytes (ps ++ [b]) := by
  induction ps with
  | nil => simp [packBytes]
  | cons a ps ih =>
    simp only [List.length_cons] at h
    rw [List.cons_append, packBytes, packBytes, ← ih (by omega), BitVec.shiftLeft_or_distrib, BitVec.or_assoc,
      ← BitVec.shiftLeft_add, List.length_cons, Nat.mul_succ]

theorem packTail_eq (bs : List Byte) {ps : List Byte} (h : ps.length + bs.length ≤ 8) :
    packTail ps.length (packBytes ps) bs = packBytes (ps ++ bs) := by
  induction bs generalizing ps with
  | nil => simp [packTail]
  | cons b bs ih =>
    simp only [List.length_cons] at h
    have hs := ih (ps := ps ++ [b]) (by simp; omega)
    rw [packTail, packBytes_snoc b (by omega)]
    simpa using hs

theorem fillPending_eq (bs : List Byte) {ps : List Byte} (h : ps.length ≤ 8) :
    fillPending ps.length (packBytes ps) bs =
      (min 8 (ps.length + bs.length), packBytes (ps ++ bs.take (8 - ps.length)), bs.drop (8 - ps.length)) := by
  induction bs generalizing ps with
  | nil => simp [fillPending]; omega
  | cons b bs ih =>
    rcases Nat.lt_or_ge ps.length 8 with h8 | h8
    · have hs := ih (ps := ps ++ [b]) (by simp; omega)
      obtain ⟨m, hm⟩ : ∃ m, 8 - ps.length = m + 1 := ⟨7 - ps.length, by omega⟩
      have hm' : 8 - (ps.length + 1) = m := by omega
      simp only [List.length_append, List.length_cons, List.length_nil, Nat.zero_add, hm', List.append_assoc,
        List.cons_append, List.nil_append] at hs
      rw [fillPending, if_pos h8, packBytes_snoc b h8, hs, hm]
      simp only [List.take_succ_cons, List.drop_succ_cons, List.length_cons]
      congr 1
      omega
    · have he : 8 - ps.length = 0 := by omega
      rw [fillPending, if_neg (by omega), he]
      simp
      omega

theorem appendFrom_eq (bs : List Byte) {h : HashState} (hp : h.pending = 0#64) :
    appendFrom h bs =
      { h with toLanes := compressAll (fullWords bs) h.toLanes, pending := packBytes (tailBytes bs) } := by
  induction hn : bs.length using Nat.strong_induction_on generalizing bs h with
  | _ n ih =>
    rcases Nat.lt_or_ge bs.length 8 with h8 | h8
    · have ht := packTail_eq bs (ps := []) (by simp; omega)
      simp only [List.length_nil, packBytes, List.nil_append] at ht
      rw [fullWords_short h8, tailBytes_short h8]
      match bs, h8 with
      | [], _ | [_], _ | [_, _], _ | [_, _, _], _ | [_, _, _, _], _ | [_, _, _, _, _], _ | [_, _, _, _, _, _], _
      | [_, _, _, _, _, _, _], _ => simp only [appendFrom, hp, ht, compressAll]
    · obtain ⟨b0, b1, b2, b3, b4, b5, b6, b7, rest, rfl⟩ := eight_of_le h8
      simp only [List.length_cons] at hn
      rw [appendFrom, ih rest.length (by omega) rest (by exact hp) rfl]
      simp [fullWords, tailBytes, compressAll]

/-- `append_ref` (R77) delivers its bytes. -/
theorem appendRef_delivers {h : HashState} {ps : List Byte} (bs : List Byte) (hp : h.pending = packBytes ps)
    (hl : ps.length = fill h.totalLength) : appendRef bs h = delivered ps bs h := by
  have hk := fill_lt h.totalLength
  unfold appendRef
  by_cases h0 : 0 < fill h.totalLength
  · have hf := fillPending_eq bs (ps := ps) (by omega)
    simp only [h0, if_true]
    rw [← hl, hp, hf]
    rcases Nat.lt_or_ge (ps.length + bs.length) 8 with h8 | h8
    · have hm : min 8 (ps.length + bs.length) < 8 := by omega
      have hs : (ps ++ bs).length < 8 := by simpa using h8
      simp only [hm, if_true, delivered, fullWords_short hs, tailBytes_short hs, compressAll,
        List.take_of_length_le (show bs.length ≤ 8 - ps.length by omega)]
    · have hm : ¬ min 8 (ps.length + bs.length) < 8 := by omega
      have hs : 8 ≤ (ps ++ bs).length := by simpa using h8
      have ht : (ps ++ bs).take 8 = ps ++ bs.take (8 - ps.length) := by
        rw [List.take_append, List.take_of_length_le (by omega)]
      have hd : (ps ++ bs).drop 8 = bs.drop (8 - ps.length) := by
        rw [List.drop_append, List.drop_of_length_le (by omega), List.nil_append]
      simp only [hm, if_false]
      rw [appendFrom_eq _ rfl]
      simp only [delivered, fullWords_eight hs, tailBytes_eight hs, ht, hd, compressAll]
  · have hps : ps = [] := List.length_eq_zero_iff.mp (by omega)
    subst hps
    simp only [h0, if_false]
    rw [appendFrom_eq _ (by simpa [packBytes] using hp)]
    simp [delivered]

end Sys2Proof.Machine
end

