-- ==== Sys2Proof/Tests/Slice0.lean ====
section
/-! SUPPORT. Tests on fixed values taken from spec/ (each comment names the place), and for every statement with hypotheses a
witness that meets them. -/

namespace Sys2Proof.Tests

open Sys2Proof.Machine

/-! ### Helpers: a small state, and one field of an answer -/

/-- A ready engine in phase `ph` with the given registers; the other fields are of no interest. -/
def engine (ph : Phase) (h : HashState) : State where
  toHashState := h
  phase := ph
  digest := 0#64
  busy := none
  draws := 0
  hostCycles := []

/-- The same engine with the host's cycles given. -/
def driven (ph : Phase) (h : HashState) (ps : List Pins) : State := { engine ph h with hostCycles := ps }

/-- A field of the next state, if there is one. -/
def afterward {α : Type} (f : State → α) : Result → Option α
  | .next t => some (f t)
  | .fault _ => none
  | .refused _ => none

def lanesS0 : Lanes := ⟨0x7469686173716475#64, 0x6b617f6d656e6665#64, 0x6b7f62616d677361#64, 0x7b6b696e727e6c7b#64⟩
def lanesK4 : Lanes := ⟨0x4a017198de0a59e0#64, 0x0d52f6f62a4f59a4#64, 0x634cb3577b01fd3d#64, 0xa5224d6f55c7d9c8#64⟩
def freshS0 : HashState := ⟨lanesS0, 0#64, 0#64⟩
/-- Seven bytes held (95_test_vectors.md A8 to A10). -/
def sevenHeld : HashState := ⟨lanesS0, 0x00a7a6a5a4a3a2a1#64, 7#64⟩
def presentInit : Pins := presenting ⟨0x10#6, 0x0f0e0d0c0b0a09080706050403020100#128⟩
def presentAppend : Pins := presenting ⟨0x28#6, 0x00000000000000008877665544332211#128⟩
def presentFinalize : Pins := presenting ⟨0x30#6, 0#128⟩
def resetPins : Pins := ⟨true, true, 0x10#6, 0#128⟩
def idlePins : Pins := ⟨false, false, 0x3f#6, 0#128⟩

/-! ### Well-formedness: the ill-formed term its one check refuses -/

theorem test_wf_refuses_nine_bytes : Instr.wf (.append 9#4 0#128) = false := by decide
theorem test_wf_takes_eight_bytes : Instr.wf (.append 8#4 0#128) = true := by decide

/-! ### Decoding: words written out from 30_encoding.md R51 to R60, a word for each row -/

theorem test_decode_init : decodeTableWord 8 0b010000 = some (.init 0#128) := by decide
theorem test_decode_append_three : decodeTableWord 8 0b100011 = some (.append 3#4 0#128) := by decide
theorem test_decode_append_eight : decodeTableWord 8 0b101000 = some (.append 8#4 0#128) := by decide
theorem test_decode_finalize : decodeTableWord 8 0b110000 = some .finalize := by decide
theorem test_decode_rejects_nine_bytes : decodeTableWord 8 0b101001 = none := by decide
theorem test_decode_rejects_seventh_bit : decodeTableWord 8 0b1010000 = none := by decide

/-- R60's example `APPEND 08090a`, with the operand bytes in the word. -/
theorem test_decode_append_operand : decodeTableWord 136 0x0a090823 = some (.append 3#4 0x0a0908#128) := by decide
theorem test_encode_append : encode (.append 3#4 0x0a0908#128) = ⟨0x23#6, 0x0a0908#128⟩ := by decide

/-! ### The step runs the presented word right after reset -/

theorem test_step_after_reset_init :
    step (State.reset.withFetchWord 8 0x10) = exec (.init 0#128) State.reset := by rfl
theorem test_step_after_reset_append :
    step (State.reset.withFetchWord 8 0x28) = .refused .uninitialised := by rfl
theorem test_step_after_reset_finalize :
    step (State.reset.withFetchWord 8 0x30) = .refused .uninitialised := by rfl

/-! ### One step of each command -/

/-- 95_test_vectors.md I4. -/
theorem test_init_lanes :
    afterward (fun t => t.toLanes) (exec (.init 0x1032547698badcfeefcdab8967452301#128) (engine .uninit sevenHeld))
      = some (⟨0x9ca2c6ec17364674#64, 0x745d2617f6deb393#64, 0x83b4ccec09205160#64, 0x64573014e1ceb98d#64⟩ : Lanes) := by
  decide

/-- 95_test_vectors.md P7 step 4: INIT in DONE clears the counter and the digest is no longer valid. -/
theorem test_init_in_done :
    afterward (fun t => (t.phase, t.pending, t.totalLength, t.digestValid)) (exec (.init 0#128) (engine .done sevenHeld))
      = some (.absorb, 0#64, 0#64, false) := by decide

/-- 95_test_vectors.md A20: the widest beat, with the counter at its top. -/
theorem test_append_wraps_and_carries_bytes :
    afterward (fun t => (t.pending, t.totalLength))
      (exec (.append 8#4 0x8877665544332211#128)
        (engine .absorb ⟨lanesS0, 0x00a7a6a5a4a3a2a1#64, 0xffffffffffffffff#64⟩))
      = some (0x0088776655443322#64, 7#64) := by decide

/-- 95_test_vectors.md P3 step 3: a beat that completes a word, its lanes. -/
theorem test_append_absorbs_word :
    afterward (fun t => (t.toLanes, t.pending))
      (exec (.append 6#4 0xffffffffffffffffffff080706050403#128) (engine .absorb ⟨lanesS0, 0x0000000000020100#64, 3#64⟩))
      = some (lanesK4, 0x0000000000000008#64) := by decide

/-- 95_test_vectors.md P2 step 4: fifteen bytes. -/
theorem test_finalize_fifteen_bytes :
    afterward (fun t => (t.digest, t.v0, t.phase)) (exec .finalize (engine .absorb ⟨lanesK4, 0x000e0d0c0b0a0908#64, 15#64⟩))
      = some (0xa129ca6149be45e5#64, 0xf6bcd53893fecff1#64, .done) := by decide

/-- 95_test_vectors.md V3: a second FINALIZE. -/
theorem test_finalize_twice : exec .finalize (engine .done freshS0) = .refused .finalized := by rfl

/-! ### Witnesses: for every statement with hypotheses, values that meet them together -/

theorem test_witness_DecodeIsTheOpcodeMap :
    ((0x10#6).extractLsb' 4 2 = 0b01#2 ∧ (0x10#6).extractLsb' 0 4 = 0#4) ∧
    ((0x28#6).extractLsb' 4 2 = 0b10#2 ∧ ((0x28#6).extractLsb' 0 4).toNat ≤ 8) ∧
    ((0x30#6).extractLsb' 4 2 = 0b11#2 ∧ (0x30#6).extractLsb' 0 4 = 0#4) ∧
    ((0x0f#6).extractLsb' 4 2 = 0b00#2) ∧
    ((0x29#6).extractLsb' 4 2 = 0b10#2 ∧ 8 < ((0x29#6).extractLsb' 0 4).toNat) ∧
    ((0x11#6).extractLsb' 4 2 = 0b01#2 ∧ (0x11#6).extractLsb' 0 4 ≠ 0#4) ∧
    ((0x3f#6).extractLsb' 4 2 = 0b11#2 ∧ (0x3f#6).extractLsb' 0 4 ≠ 0#4) := by decide

theorem test_witness_DecodeOfEncode : (Instr.append 8#4 1#128).wf = true := by decide

theorem test_witness_EncodeOfDecode : ∃ i, decode ⟨0x28#6, 5#128⟩ = .ok i := ⟨.append 8#4 5#128, by rfl⟩

theorem test_witness_CommandNotationOnThePort :
    (List.replicate 16 (0xff : Byte)).length = 16 ∧ ([] : List Byte).length ≤ 8 ∧ (List.replicate 8 (1 : Byte)).length ≤ 8 := by
  decide

theorem test_witness_BytemaskAndBeat : 0 ≤ 8 ∧ 8 ≤ 8 := by decide

theorem test_witness_LanesPackLittleEndian : 8 ≤ 8 := by decide

theorem test_witness_RotationMovesEveryBit : 0 < 63 ∧ 63 < 64 ∧ 0 < 1 ∧ 1 < 64 ∧ 0 < 64 := by decide

theorem test_witness_InitForgetsTheOldState : (engine .done sevenHeld).busy = (engine .uninit freshS0).busy := by decide

theorem test_witness_SeedBitEntersTwoLanes :
    63 < 128 ∧ 64 < 128 ∧ (∃ t, exec (.init 0#128) (engine .uninit freshS0) = .next t) ∧
    (∃ u, exec (.init (0#128 ^^^ (1#128 <<< 64))) (engine .uninit freshS0) = .next u) :=
  ⟨by decide, by decide, ⟨_, rfl⟩, ⟨_, rfl⟩⟩

theorem test_witness_AppendCompletes :
    (8#4).toNat ≤ 8 ∧ (0#4).toNat ≤ 8 ∧ (engine .absorb sevenHeld).phase = .absorb ∧
    (engine .absorb ⟨lanesS0, 0x0000000000020100#64, 3#64⟩).toHashState
      = ⟨⟨0x7469686173716475#64, 0x6b617f6d656e6665#64, 0x6b7f62616d677361#64, 0x7b6b696e727e6c7b#64⟩,
          0x0000000000020100#64, 3#64⟩ := by decide

/-- `k = 7` with `n = 8` (a word completes), and `k = 0` with `n = 7` (none does). -/
theorem test_witness_PendingMachineTable :
    (engine .absorb sevenHeld).toHashState.Tidy ∧ 8 ≤ fill (engine .absorb sevenHeld).totalLength + (8#4).toNat ∧
    (∃ t, exec (.append 8#4 1#128) (engine .absorb sevenHeld) = .next t) ∧
    (engine .absorb freshS0).toHashState.Tidy ∧ fill (engine .absorb freshS0).totalLength + (7#4).toNat < 8 ∧
    (∃ t, exec (.append 7#4 1#128) (engine .absorb freshS0) = .next t) ∧
    (∃ t, exec (.init 1#128) (engine .absorb freshS0) = .next t) ∧
    (∃ t, exec .finalize (engine .absorb freshS0) = .next t) :=
  ⟨by decide, by decide, ⟨_, rfl⟩, by decide, by decide, ⟨_, rfl⟩, ⟨_, rfl⟩, ⟨_, rfl⟩⟩

theorem test_witness_FullBeatAtWordBoundary :
    (engine .absorb freshS0).phase = .absorb ∧ (engine .absorb freshS0).toHashState.Tidy ∧
    fill (engine .absorb freshS0).totalLength = 0 := by decide

theorem test_witness_ZeroLengthBeatChangesNothing :
    (engine .absorb sevenHeld).phase = .absorb ∧ (engine .uninit sevenHeld).phase = .uninit ∧
    (engine .done sevenHeld).phase = .done := by decide

theorem test_witness_OnlyTheEmptyBeatIsIdle :
    (∃ t, exec (.append 0#4 1#128) (engine .absorb sevenHeld) = .next t) ∧
    (∃ t, exec (.append 8#4 1#128) (engine .absorb sevenHeld) = .next t) := ⟨⟨_, rfl⟩, ⟨_, rfl⟩⟩

theorem test_witness_LanesAboveTheCountAreIgnored :
    (7#4).toNat ≤ 8 ∧
    (∀ j < (7#4).toNat, byteLane 0xaa0e0d0c0b0a0908#128 j = byteLane 0x000e0d0c0b0a0908#128 j) ∧
    (engine .absorb freshS0).phase = .absorb ∧ (engine .absorb freshS0).pending = 0#64 ∧
    fill (engine .absorb freshS0).totalLength = 0 ∧
    (0xaa0e0d0c0b0a0908#128 : Wide).extractLsb' 0 64 = 0xaa0e0d0c0b0a0908#64 ∧
    (0x000e0d0c0b0a0908#128 : Wide).extractLsb' 0 64 = 0x000e0d0c0b0a0908#64 := by decide

theorem test_witness_AppendKeepsPendingTidy :
    (engine .absorb sevenHeld).toHashState.Tidy ∧ ∃ t, exec (.append 8#4 1#128) (engine .absorb sevenHeld) = .next t :=
  ⟨by decide, ⟨_, rfl⟩⟩

/-- One command of each kind completes; the APPEND is at the top of the counter. -/
theorem test_witness_TotalLengthCountsBytes :
    (∃ t, exec (.init 1#128) (engine .absorb sevenHeld) = .next t) ∧
    (∃ t, exec (.append 8#4 1#128) (engine .absorb ⟨lanesS0, 0#64, 0xffffffffffffffff#64⟩) = .next t) ∧
    (∃ t, exec .finalize (engine .absorb sevenHeld) = .next t) := ⟨⟨_, rfl⟩, ⟨_, rfl⟩, ⟨_, rfl⟩⟩

theorem test_witness_FinalizeCompletes :
    (engine .absorb freshS0).phase = .absorb ∧ (engine .absorb freshS0).busy = none ∧
    (engine .absorb freshS0).toHashState
      = ⟨⟨0x7469686173716475#64, 0x6b617f6d656e6665#64, 0x6b7f62616d677361#64, 0x7b6b696e727e6c7b#64⟩, 0#64, 0#64⟩ := by
  decide

theorem test_witness_FinalWordBytes : sevenHeld.Tidy := by decide

theorem test_witness_DigestReadsLengthModulo256 :
    (engine .absorb ⟨lanesS0, 1#64, 1#64⟩).phase = .absorb ∧ (engine .absorb ⟨lanesS0, 1#64, 257#64⟩).phase = .absorb ∧
    (engine .absorb ⟨lanesS0, 1#64, 1#64⟩).toLanes = (engine .absorb ⟨lanesS0, 1#64, 257#64⟩).toLanes ∧
    (engine .absorb ⟨lanesS0, 1#64, 1#64⟩).pending = (engine .absorb ⟨lanesS0, 1#64, 257#64⟩).pending ∧
    (1#64).toNat % 256 = (257#64).toNat % 256 := by decide

theorem test_witness_CounterWidthIsInvisible :
    engine .absorb ⟨lanesS0, 1#64, 257#64⟩ = { engine .absorb ⟨lanesS0, 1#64, 1#64⟩ with totalLength := 257#64 } ∧
    (1#64).toNat % 256 = (257#64).toNat % 256 := by decide

theorem test_witness_PhaseTransitionTable :
    (8#4).toNat ≤ 8 ∧ (engine .uninit freshS0).phase = .uninit ∧ (engine .absorb freshS0).phase = .absorb ∧
    (engine .done freshS0).phase = .done := by decide

theorem test_witness_EveryCommandHasOneOutcome :
    (driven .done freshS0 [presentFinalize]).busy = none ∧
    (driven .done freshS0 [presentFinalize]).hostCycles = [presentFinalize] ∧ presentFinalize.rst = false ∧
    presentFinalize.cmdValid = true := by decide

/-- Without a command the digest stays; with INIT, and with reset, it goes. -/
theorem test_witness_DigestStaysUntilInitOrReset :
    (driven .done freshS0 [idlePins]).digestValid = true ∧ (∃ t, step (driven .done freshS0 [idlePins]) = .next t) ∧
    (driven .done freshS0 [presentInit]).digestValid = true ∧ (∃ t, step (driven .done freshS0 [presentInit]) = .next t) ∧
    (driven .done freshS0 [resetPins]).digestValid = true ∧ (∃ t, step (driven .done freshS0 [resetPins]) = .next t) :=
  ⟨by decide, ⟨_, rfl⟩, by decide, ⟨_, rfl⟩, by decide, ⟨_, rfl⟩⟩

theorem test_witness_OnlyFinalizeRaisesDigestValid :
    (driven .absorb freshS0 [presentFinalize]).digestValid = false ∧
    ∃ t, step (driven .absorb freshS0 [presentFinalize]) = .next t ∧ t.digestValid = true :=
  ⟨by decide, _, rfl, rfl⟩

theorem test_witness_StepRunsTheDecodedCommand :
    (driven .absorb freshS0 [presentFinalize]).busy = none ∧
    (driven .absorb freshS0 [presentFinalize]).hostCycles = [presentFinalize] ∧ presentFinalize.rst = false ∧
    presentFinalize.cmdValid = true ∧ decode ⟨presentFinalize.ctl, presentFinalize.wdata⟩ = .ok .finalize ∧
    ({ engine .absorb freshS0 with busy := some ⟨0x30#6, 0#128⟩ } : State).busy = some ⟨0x30#6, 0#128⟩ ∧
    decode ⟨0x30#6, 0#128⟩ = .ok .finalize :=
  ⟨rfl, rfl, rfl, rfl, rfl, rfl, rfl⟩

theorem test_witness_StepWithoutACommand :
    (engine .absorb freshS0).busy = none ∧ (engine .absorb freshS0).hostCycles = [] ∧
    (driven .absorb freshS0 [idlePins]).hostCycles = [idlePins] ∧ idlePins.rst = false ∧ idlePins.cmdValid = false ∧
    (driven .absorb freshS0 [resetPins]).hostCycles = [resetPins] ∧ resetPins.rst = true := by decide

theorem test_witness_RunIsTheFoldOfTheCommands :
    let s := driven .uninit freshS0 [presenting (encode (.init 1#128)), presenting (encode .finalize), idlePins]
    s.busy = none ∧ (∀ i ∈ [Instr.init 1#128, Instr.finalize], i.wf = true) ∧
    s.hostCycles = [Instr.init 1#128, Instr.finalize].map (fun i => presenting (encode i)) ++ [idlePins] := by decide

theorem test_witness_InitIsTheOnlyWayOn : (8#4).toNat ≤ 8 := by decide

/-- The invariant met in ABSORB with seven bytes held, and a step from there. -/
theorem test_witness_StepKeepsTheInvariant :
    (driven .absorb sevenHeld [presentAppend]).Inv ∧ ∃ t, step (driven .absorb sevenHeld [presentAppend]) = .next t :=
  ⟨by decide, ⟨_, rfl⟩⟩

theorem test_witness_ChunkInvariance :
    (engine .absorb sevenHeld).phase = .absorb ∧ (engine .absorb sevenHeld).toHashState.Tidy ∧
    legalBeats [(0#4, 1#128), (8#4, 2#128), (3#4, 3#128)] ∧ (8#4).toNat ≤ 8 :=
  ⟨by decide, by decide, by simp [legalBeats], by decide⟩

theorem test_witness_StateOfSeedAndStream : legalBeats [(8#4, 1#128), (8#4, 2#128), (1#4, 3#128)] := by
  simp [legalBeats]

theorem test_witness_HashComputesSipHash : (List.replicate 16 (7 : Byte)).length = 16 := by decide

/-- The bytes 1, 2 as one beat, and as two with an empty one between. -/
theorem test_witness_DigestIgnoresChunkingAndInstance :
    legalBeats [(2#4, 0x0201#128)] ∧ legalBeats [(1#4, 0xff01#128), (0#4, 9#128), (1#4, 2#128)] ∧
    streamOf [(2#4, 0x0201#128)] = streamOf [(1#4, 0xff01#128), (0#4, 9#128), (1#4, 2#128)] :=
  ⟨by simp [legalBeats], by simp [legalBeats], by decide⟩

theorem test_witness_AcceptanceAtAnEdge :
    (presentInit.cmdValid = true ∧ (engine .done freshS0).cmdReady = true ∧ presentInit.rst = false) ∧
    (idlePins.cmdValid = false ∧ (engine .done freshS0).cmdReady = true ∧ idlePins.rst = false) := by decide

theorem test_witness_BusyEngineIgnoresThePins :
    ({ engine .absorb freshS0 with busy := some ⟨0x30#6, 0#128⟩ } : State).cmdReady = false ∧ presentInit.rst = false ∧
    idlePins.rst = false := by decide

theorem test_witness_ResetWinsAtEveryEdge : resetPins.rst = true := by decide

/-- FINALIZE taking three cycles: after one edge more it is in progress, after three it is complete. -/
theorem test_witness_EveryCommandCompletes :
    Clocked.accepts presentFinalize ⟨engine .absorb freshS0, 0⟩ = true ∧ (∀ q ∈ [idlePins], q.rst = false) ∧
    (∀ q ∈ [idlePins, presentInit, idlePins], q.rst = false) ∧
    [idlePins].length < latency ⟨0, 0, 0, 2, 0⟩ presentFinalize.transfer freshS0 ∧
    [idlePins, presentInit, idlePins].length = latency ⟨0, 0, 0, 2, 0⟩ presentFinalize.transfer freshS0 := by decide

theorem test_witness_ClockedEngineRefinesTheStep :
    Clocked.accepts presentFinalize ⟨engine .absorb freshS0, 0⟩ = true ∧
    (∃ t, step ({ engine .absorb freshS0 with hostCycles := [presentFinalize] } : State) = .next t) ∧
    (∀ q ∈ [idlePins], q.rst = false) ∧
    [idlePins].length = latency ⟨0, 0, 0, 0, 0⟩ presentFinalize.transfer freshS0 :=
  ⟨by decide, ⟨_, rfl⟩, by decide, by decide⟩

/-- FINALIZE in DONE, which the model refuses, then INIT. -/
theorem test_witness_InitRecoversFromMisuse :
    Clocked.accepts presentFinalize ⟨engine .done freshS0, 0⟩ = true ∧ (∀ r ∈ [idlePins] ++ [idlePins], r.rst = false) ∧
    [idlePins].length = latency ⟨0, 0, 0, 0, 0⟩ presentFinalize.transfer freshS0 ∧ presentInit.rst = false ∧
    presentInit.cmdValid = true ∧ presentInit.ctl = 0x10#6 ∧
    presentInit.wdata = 0x0f0e0d0c0b0a09080706050403020100#128 ∧
    [idlePins].length = (⟨0, 0, 0, 0, 0⟩ : Config.Latency).init + 1 := by decide

end Sys2Proof.Tests
end

section
/-! PROOFS for 00_scope.md: what the step does with a command presented to it, its one outcome (R13), and the clock-level
machine as a refinement of the step (R6, R41, R43). -/

namespace Sys2Proof.Machine

/-! ### The step as the run of a transfer -/

/-- A command in progress is run to its end, whatever the pins (log 12). -/
theorem step_of_busy {s : State} {c : Transfer} (hb : s.busy = some c) :
    step s = runTransfer c { s with busy := none } := by
  simp [step, hb]

/-- A ready engine to which a command is presented carries it out, the cycle being consumed (R6, R49). -/
theorem step_of_presented {s : State} {p : Pins} {rest : List Pins} (hb : s.busy = none)
    (hc : s.hostCycles = p :: rest) (hr : p.rst = false) (hv : p.cmdValid = true) :
    step s = runTransfer p.transfer { s with hostCycles := rest } := by
  simp [step, hb, hc, readyEdge, hr, hv]

/-- Settles O35: the transfer the step runs decodes to the command, so it is the command's meaning. -/
theorem stepRunsTheDecodedCommand : Obligations.StepRunsTheDecodedCommand := by
  refine ⟨fun s p rest i hb hc hr hv hd => ?_, fun s c i hb hd => ?_⟩
  · rw [step_of_presented hb hc hr hv]
    exact runTransfer_ok hd _
  · rw [step_of_busy hb, runTransfer_ok hd]

/-! ### The outcomes of a transfer -/

/-- The decode function clause by clause (R55); no control word is left over. -/
theorem decode_cases (c : Transfer) :
    (ctlOp c.ctl = 0b01#2 ∧ ctlNbytes c.ctl = 0#4 ∧ decode c = .ok (.init c.wdata)) ∨
    (ctlOp c.ctl = 0b10#2 ∧ (ctlNbytes c.ctl).toNat ≤ 8 ∧ decode c = .ok (.append (ctlNbytes c.ctl) c.wdata)) ∨
    (ctlOp c.ctl = 0b11#2 ∧ ctlNbytes c.ctl = 0#4 ∧ decode c = .ok .finalize) ∨
    (ctlOp c.ctl = 0b00#2 ∧ decode c = .error .op) ∨
    (ctlOp c.ctl = 0b10#2 ∧ 8 < (ctlNbytes c.ctl).toNat ∧ decode c = .error .nbytes) ∨
    ((ctlOp c.ctl = 0b01#2 ∨ ctlOp c.ctl = 0b11#2) ∧ ctlNbytes c.ctl ≠ 0#4 ∧ decode c = .error .field) := by
  have four : ∀ op : BitVec 2, op = 0b00#2 ∨ op = 0b01#2 ∨ op = 0b10#2 ∨ op = 0b11#2 := by decide
  obtain hop | hop | hop | hop := four (ctlOp c.ctl)
  · simp [decode, hop]
  · by_cases hn : ctlNbytes c.ctl = 0#4 <;> simp [decode, hop, hn]
  · by_cases hn : (ctlNbytes c.ctl).toNat ≤ 8
    · simp [decode, hop, hn]
    · simp [decode, hop, hn, Nat.lt_of_not_le hn]
  · by_cases hn : ctlNbytes c.ctl = 0#4 <;> simp [decode, hop, hn]

theorem runTransfer_error {c : Transfer} {r : Reserved} (h : decode c = .error r) (s : State) :
    runTransfer c s = .refused (refusalOf r) := by
  simp [runTransfer, h]

/-- A well-formed command other than INIT answers through the admission in ABSORB (R22). -/
theorem exec_eq_admitInAbsorb {i : Instr} (hw : i.wf = true) (hi : ∀ seed, i ≠ .init seed) (s : State) :
    ∃ t, exec i s = admitInAbsorb s t := by
  cases i with
  | init seed => exact absurd rfl (hi seed)
  | append n w => exact ⟨_, if_pos (by simpa [Instr.wf] using hw)⟩
  | finalize => exact ⟨_, rfl⟩

/-- The phase alone decides whether a command other than INIT completes, and names the refusal (R22). -/
theorem exec_phase_cases {i : Instr} (hw : i.wf = true) (hi : ∀ seed, i ≠ .init seed) (s : State) :
    (s.phase = .uninit ∧ exec i s = .refused .uninitialised) ∨
    (s.phase = .absorb ∧ ∃ t, exec i s = .next t) ∨
    (s.phase = .done ∧ exec i s = .refused .finalized) := by
  obtain ⟨t, ht⟩ := exec_eq_admitInAbsorb hw hi s
  rw [ht]
  obtain h | ⟨hp, h⟩ | h := admitInAbsorb_cases s t
  · exact .inl h
  · exact .inr (.inl ⟨hp, t, h⟩)
  · exact .inr (.inr h)

/-- An accepted transfer has exactly one outcome (R13): the clauses of the decode function, and for APPEND and FINALIZE the
phase, decide which; the encoding comes first (R103). -/
theorem runTransfer_outcomes (c : Transfer) (s : State) :
    (runTransfer c s = .refused .reservedOp ↔ ctlOp c.ctl = 0b00#2) ∧
    (runTransfer c s = .refused .reservedNbytes ↔ ctlOp c.ctl = 0b10#2 ∧ 8 < (ctlNbytes c.ctl).toNat) ∧
    (runTransfer c s = .refused .reservedField ↔
      (ctlOp c.ctl = 0b01#2 ∨ ctlOp c.ctl = 0b11#2) ∧ ctlNbytes c.ctl ≠ 0#4) ∧
    (runTransfer c s = .refused .uninitialised ↔
      (decode c).toBool = true ∧ ctlOp c.ctl ≠ 0b01#2 ∧ s.phase = .uninit) ∧
    (runTransfer c s = .refused .finalized ↔ (decode c).toBool = true ∧ ctlOp c.ctl ≠ 0b01#2 ∧ s.phase = .done) ∧
    ((∃ t, runTransfer c s = .next t) ↔ (decode c).toBool = true ∧ (ctlOp c.ctl = 0b01#2 ∨ s.phase = .absorb)) ∧
    (∀ f : Fault, runTransfer c s ≠ .fault f) := by
  obtain ⟨hop, hn, hd⟩ | ⟨hop, hn, hd⟩ | ⟨hop, hn, hd⟩ | ⟨hop, hd⟩ | ⟨hop, hn, hd⟩ | ⟨hop, hn, hd⟩ := decode_cases c
  · simp [runTransfer_ok hd, exec, execInit_eq, hop, hn, hd, Except.toBool]
  · have hw : (Instr.append (ctlNbytes c.ctl) c.wdata).wf = true := by simpa [Instr.wf] using hn
    obtain ⟨hp, h⟩ | ⟨hp, t, h⟩ | ⟨hp, h⟩ := exec_phase_cases hw (by simp) s <;>
      simp [runTransfer_ok hd, h, hp, hop, Nat.not_lt.mpr hn, hd, Except.toBool]
  · obtain ⟨hp, h⟩ | ⟨hp, t, h⟩ | ⟨hp, h⟩ := exec_phase_cases (i := .finalize) rfl (by simp) s <;>
      simp [runTransfer_ok hd, h, hp, hop, hn, hd, Except.toBool]
  · simp [runTransfer_error hd, refusalOf, hop, hd, Except.toBool]
  · simp [runTransfer_error hd, refusalOf, hop, hn, hd, Except.toBool]
  · obtain hop | hop := hop <;> simp [runTransfer_error hd, refusalOf, hop, hn, hd, Except.toBool]

/-- Settles O31: the step on a presented transfer is the run of that transfer, which has one outcome in each clause of the decoder. -/
theorem everyCommandHasOneOutcome : Obligations.EveryCommandHasOneOutcome := by
  intro s p rest hb hc hr hv
  rw [step_of_presented hb hc hr hv]
  exact runTransfer_outcomes p.transfer { s with hostCycles := rest }

/-! ### The clocked engine -/

theorem completed_of_next {c : Transfer} {s t : State} (h : runTransfer c s = .next t) : completed c s = t := by
  simp [completed, h]

/-- With no edge left, the next edge without a reset completes the command in progress (R26, R41). -/
theorem tick_of_none_left {L : Config.Latency} {q : Pins} {k : Clocked} {c : Transfer} (hb : k.core.busy = some c)
    (hl : k.left = 0) (hr : q.rst = false) : tick L q k = ⟨completed c { k.core with busy := none }, 0⟩ := by
  simp [tick, hr, hb, hl]

/-- Once the latency of an accepted command has passed, short of a reset, the whole of its effect is there: all edges but
the last only count down (R41, R120). -/
theorem tickAll_of_latency {L : Config.Latency} {p : Pins} {k : Clocked} {ps : List Pins} (ha : k.accepts p = true)
    (hr : ∀ q ∈ ps, q.rst = false) (hl : ps.length = latency L p.transfer k.core.toHashState) :
    tickAll L (p :: ps) k = ⟨completed p.transfer k.core, 0⟩ := by
  obtain ⟨-, hb, -⟩ := (accepts_iff p k).mp ha
  obtain rfl | ⟨qs, q, rfl⟩ := ps.eq_nil_or_concat'
  · simp [latency] at hl
  · have hleft : qs.length = extraCycles L p.transfer k.core.toHashState := by simpa [latency] using hl
    have hqs : ∀ x ∈ qs, x.rst = false := fun x hx => hr x (by simp [hx])
    have hready : ({ k.core with busy := none } : State) = k.core := by rw [← hb]
    rw [tickAll, tick_accepts ha, tickAll_append, tickAll_busy L qs rfl hqs hleft.le]
    simp only [tickAll, hleft, Nat.sub_self]
    rw [tick_of_none_left rfl rfl (hr q (by simp)), hready]

/-- Settles O51: the command completes to what the step answers. -/
theorem clockedEngineRefinesTheStep : Obligations.ClockedEngineRefinesTheStep := by
  intro L p k t ps ha hs hr hl
  obtain ⟨hv, hb, hp⟩ := (accepts_iff p k).mp ha
  have hrun : runTransfer p.transfer k.core = .next t := by
    rw [← hs]
    exact (step_of_presented (s := { k.core with hostCycles := p :: k.core.hostCycles }) hb rfl hp hv).symm
  rw [tickAll_of_latency ha hr hl, completed_of_next hrun]

end Sys2Proof.Machine
end

section
/-! PROOFS for 10_state.md: the invariant (R20), the counter (R18, R19), the outputs and the phase table (R22, R25), what
raises and keeps `digest_valid` (R24, R118), the registers as a function of seed and stream (R29), and the completion of
an accepted command (R26, R120). -/

namespace Sys2Proof.Machine

/-! ### The invariant of `pending` -/

theorem hashInit_tidy (seed : Wide) : (hashInit seed).Tidy := by
  simp [HashState.Tidy]

/-- A beat on a tidy HashState delivers its bytes after the ones held, and leaves the tail of those (R79). -/
theorem hashAppend_tidy {h : HashState} {n : Nat} (w : Wide) (ht : h.Tidy) (hn : n ≤ 8) : (hashAppend n w h).Tidy := by
  have hl : ((List.range (fill h.totalLength)).map fun j => h.pending.extractLsb' (8 * j) 8).length
      = fill h.totalLength := by simp
  rw [hashAppend_delivers w (tidy_eq_packBytes ht) hl hn]
  exact tidy_of_packBytes rfl (delivered_fill hl)

/-- Every command that answers a next state keeps the invariant (R20, R79). -/
theorem exec_keeps_inv {i : Instr} {s t : State} (hs : s.Inv) (h : exec i s = .next t) : t.Inv := by
  obtain ⟨seed, -, rfl⟩ | ⟨n, w, -, hn, hp, rfl⟩ | ⟨-, hp, rfl⟩ := exec_next_cases h
  · exact .inr (hashInit_tidy seed)
  all_goals have ht : s.toHashState.Tidy := hs.resolve_left (by simp [hp])
  · exact .inr (hashAppend_tidy w ht hn)
  · exact .inr ht

/-- Settles O41: a command keeps the invariant, a reset ends in UNINIT, a cycle without a command moves nothing. -/
theorem stepKeepsTheInvariant : Obligations.StepKeepsTheInvariant := by
  intro s t hs h
  obtain ⟨c, i, -, -, he⟩ | ⟨-, -, rfl⟩ | ⟨p, rest, -, -, -, rfl⟩ | ⟨p, rest, -, -, -, -, rfl⟩ |
    ⟨p, rest, i, -, -, -, -, -, he⟩ := step_next_cases h
  · exact exec_keeps_inv (s := { s with busy := none }) hs he
  · exact hs
  · exact .inl rfl
  · exact hs
  · exact exec_keeps_inv (s := { s with hostCycles := rest }) hs he

/-- Settles O40: the reset state is in UNINIT. -/
theorem resetMeetsTheInvariant : Obligations.ResetMeetsTheInvariant := .inl State.reset_phase

/-! ### The counter -/

/-- Settles O25: INIT writes 0, a beat adds its count modulo 2^64, FINALIZE does not write the counter. -/
theorem totalLengthCountsBytes : Obligations.TotalLengthCountsBytes := by
  intro i s t h
  obtain ⟨seed, rfl, rfl⟩ | ⟨n, w, rfl, -, -, rfl⟩ | ⟨rfl, -, rfl⟩ := exec_next_cases h
  · rfl
  · simp [hashAppend_totalLength, add64_toNat]
  · rfl

/-- Two states that differ in `totalLength` only, and agree there modulo 256 (R19). -/
def AgreeButCounter (s₁ s₂ : State) : Prop :=
  s₂ = { s₁ with totalLength := s₂.totalLength } ∧ s₁.totalLength.toNat % 256 = s₂.totalLength.toNat % 256

/-- Two answers are both next states that agree but for the counter, or both refusals for the same reason. -/
inductive AnswersAgree : Result → Result → Prop
  | next {t₁ t₂ : State} : AgreeButCounter t₁ t₂ → AnswersAgree (.next t₁) (.next t₂)
  | refused (r : Refusal) : AnswersAgree (.refused r) (.refused r)

theorem AgreeButCounter.refl (s : State) : AgreeButCounter s s := ⟨rfl, rfl⟩

theorem AgreeButCounter.phase_eq {s₁ s₂ : State} (h : AgreeButCounter s₁ s₂) : s₁.phase = s₂.phase := by
  rw [h.1]

/-- The fill level reads three bits of the counter (R69). -/
theorem fill_congr {a b : Word} (h : a.toNat % 256 = b.toNat % 256) : fill a = fill b := by
  rw [fill_eq, fill_eq]
  omega

/-- A beat reads the counter through the fill level alone (R72). -/
theorem hashAppend_counter {h : HashState} {b : Word} (n : Nat) (w : Wide)
    (hb : h.totalLength.toNat % 256 = b.toNat % 256) :
    hashAppend n w { h with totalLength := b } =
      { hashAppend n w h with totalLength := add64 b (BitVec.ofNat 64 n) } := by
  simp only [hashAppend, fill_congr hb]
  split <;> rfl

/-- The final word reads the low eight bits of the counter (R89). -/
theorem finalWord_counter {h : HashState} {b : Word} (hb : h.totalLength.toNat % 256 = b.toNat % 256) :
    finalWord { h with totalLength := b } = finalWord h := by
  have hbits : b.extractLsb' 0 8 = h.totalLength.extractLsb' 0 8 := by
    apply BitVec.eq_of_toNat_eq
    simpa [BitVec.extractLsb'_toNat] using hb.symm
  simp [finalWord, hbits]

theorem finalLanes_counter {h : HashState} {b : Word} (hb : h.totalLength.toNat % 256 = b.toNat % 256) :
    finalLanes { h with totalLength := b } = finalLanes h := by
  simp [finalLanes, finalWord_counter hb]

theorem admitInAbsorb_agree {s₁ s₂ t₁ t₂ : State} (hp : s₁.phase = s₂.phase) (ht : AgreeButCounter t₁ t₂) :
    AnswersAgree (admitInAbsorb s₁ t₁) (admitInAbsorb s₂ t₂) := by
  unfold admitInAbsorb
  rw [← hp]
  cases s₁.phase with
  | uninit => exact .refused _
  | absorb => exact .next ht
  | done => exact .refused _

/-- One command answers alike from two states that agree but for the counter. -/
theorem exec_agree (i : Instr) {s₁ s₂ : State} (h : AgreeButCounter s₁ s₂) :
    AnswersAgree (exec i s₁) (exec i s₂) := by
  have hp := h.phase_eq
  obtain ⟨hs, hc⟩ := h
  generalize s₂.totalLength = b at hs hc
  subst hs
  cases i with
  | init seed => exact .next (.refl _)
  | append n w =>
    by_cases hn : n.toNat ≤ 8
    · have ha := hashAppend_counter n.toNat w hc
      simp only [exec, execAppend, hn, if_true]
      refine admitInAbsorb_agree hp ⟨?_, ?_⟩
      · simp [ha, State.withHash]
      · simp only [State.withHash_hash, hashAppend_totalLength, add64_toNat]
        omega
    · simp only [exec, execAppend, hn, if_false]
      exact .refused _
  | finalize =>
    refine admitInAbsorb_agree hp ⟨?_, hc⟩
    simp [finalLanes_counter hc, State.withLanes, State.withHash]

theorem execAll_agree (is : List Instr) {s₁ s₂ : State} (h : AgreeButCounter s₁ s₂) :
    AnswersAgree (execAll is s₁) (execAll is s₂) := by
  induction is generalizing s₁ s₂ with
  | nil => exact .next h
  | cons i is ih =>
    have hi := exec_agree i h
    unfold execAll
    generalize exec i s₁ = a₁, exec i s₂ = a₂ at hi ⊢
    cases hi with
    | next ht => exact ih ht
    | refused r => exact .refused r

/-- Settles O29: the commands preserve agreement but for the counter, and no output reads the counter. -/
theorem counterWidthIsInvisible : Obligations.CounterWidthIsInvisible := by
  intro is s₁ s₂ hs hc
  have h := execAll_agree is ⟨hs, hc⟩
  generalize execAll is s₁ = a₁, execAll is s₂ = a₂ at h ⊢
  cases h with
  | next ht =>
    obtain ⟨ht, hc⟩ := ht
    rw [ht]
    exact ⟨rfl, rfl, rfl, rfl, rfl, hc⟩
  | refused r => rfl

/-! ### The outputs and the phase table -/

theorem cmdReady_iff (s : State) : s.cmdReady = true ↔ s.busy = none := by
  simp [State.cmdReady]

theorem digestValid_iff (s : State) : s.digestValid = true ↔ s.phase = .done ∧ s.busy = none := by
  simp [State.digestValid]

/-- Outside DONE `digest_valid` is 0. -/
theorem digestValid_eq_false {s : State} (h : s.phase ≠ .done) : s.digestValid = false := by
  simp [State.digestValid, h]

theorem digestOut_eq_none {s : State} (h : s.digestValid = false) : s.digestOut = none := by
  simp [State.digestOut, h]

/-- Settles O32: each output by its definition; `withHash` touches none of the three fields they read. -/
theorem outputsShowPhaseBusyDigestOnly : Obligations.OutputsShowPhaseBusyDigestOnly := by
  refine ⟨fun s => ⟨cmdReady_iff s, digestValid_iff s, ?_⟩, fun s h => ?_⟩
  · simp only [State.outputs, State.digestOut, digestValid_iff]
  · exact State.outputs_congr _ _ rfl rfl rfl

/-- Settles O38: reset sets `phase` and `busy`, and the outputs follow from these. -/
theorem resetValues : Obligations.ResetValues := by
  have hv : State.reset.digestValid = false := digestValid_eq_false (by simp)
  exact ⟨rfl, rfl, rfl, hv, digestOut_eq_none hv⟩

/-- Settles O30: each cell is the table's entry for a well-formed command. -/
theorem phaseTransitionTable : Obligations.PhaseTransitionTable := by
  refine ⟨fun seed s => ⟨_, rfl, rfl⟩, fun n w s hn => ?_, fun s => ?_, State.applyReset_phase⟩
  · have hcell := exec_by_table (i := .append n w) (by simpa [Instr.wf] using hn) s
    refine ⟨fun hp => ?_, fun hp => ?_, fun hp => ?_⟩ <;> simpa only [hp, phaseTable] using hcell
  · have hcell := exec_by_table (i := .finalize) rfl s
    refine ⟨fun hp => ?_, fun hp => ?_, fun hp => ?_⟩ <;> simpa only [hp, phaseTable] using hcell

/-- Settles O39: the row UNINIT of the phase table, at the reset state. -/
theorem initIsTheOnlyWayOn : Obligations.InitIsTheOnlyWayOn := by
  obtain ⟨hinit, happend, hfinalize, -⟩ := phaseTransitionTable
  exact ⟨fun n w hn => (happend n w _ hn).1 State.reset_phase, (hfinalize _).1 State.reset_phase,
    fun seed => hinit seed _⟩

theorem decode_init_word (seed : Wide) : decode ⟨0x10#6, seed⟩ = .ok (.init seed) := by
  have hword : ctlOp 0x10#6 = 0b01#2 ∧ ctlNbytes 0x10#6 = 0#4 := by decide
  exact if_pos hword

/-- Settles O15: INIT answers the state of its rule, in ABSORB, where `digest_valid` is 0. -/
theorem initCompletes : Obligations.InitCompletes := by
  refine ⟨fun seed s => ⟨decode_init_word seed, _, execInit_eq seed s, ?_⟩, fun s => ⟨_, execInit_eq _ s, ?_⟩⟩
  · exact ⟨rfl, rfl, rfl, rfl, rfl, rfl, rfl, digestValid_eq_false (by simp),
      digestOut_eq_none (digestValid_eq_false (by simp)), rfl, rfl⟩
  · show (hashInit 0x0f0e0d0c0b0a09080706050403020100#128).toLanes = _
    decide

/-! ### What raises `digest_valid` and what takes it away -/

/-- A transfer that decodes to INIT carries the seed as its operand (R54). -/
theorem seed_of_decode_init {c : Transfer} {seed : Wide} (h : decode c = .ok (.init seed)) : seed = c.wdata := by
  obtain ⟨-, -, hd⟩ | ⟨-, -, hd⟩ | ⟨-, -, hd⟩ | ⟨-, hd⟩ | ⟨-, -, hd⟩ | ⟨-, -, hd⟩ := decode_cases c <;>
    rw [hd] at h
  case inl => cases h; rfl
  all_goals cases h

/-- Only the control word 0x30 decodes to FINALIZE. -/
theorem ctl_of_decode_finalize {c : Transfer} (h : decode c = .ok .finalize) : c.ctl = 0x30#6 := by
  have key : ∀ ctl : Ctl, ctlOp ctl = 0b11#2 → ctlNbytes ctl = 0#4 → ctl = 0x30#6 := by decide
  obtain ⟨-, -, hd⟩ | ⟨-, -, hd⟩ | ⟨hop, hn, hd⟩ | ⟨-, hd⟩ | ⟨-, -, hd⟩ | ⟨-, -, hd⟩ := decode_cases c <;>
    rw [hd] at h
  case inr.inr.inl => exact key c.ctl hop hn
  all_goals cases h

/-- A command admitted in DONE is an INIT, and takes `digest_valid` away. -/
theorem exec_from_done {i : Instr} {s t : State} (hp : s.phase = .done) (h : exec i s = .next t) :
    (∃ seed, i = .init seed) ∧ t.digestValid = false := by
  obtain ⟨seed, rfl, rfl⟩ | ⟨_, _, _, _, ha, _⟩ | ⟨_, ha, _⟩ := exec_next_cases h
  · exact ⟨⟨seed, rfl⟩, digestValid_eq_false (by simp)⟩
  all_goals simp [hp] at ha

/-- A command that ends in DONE is a FINALIZE taken in ABSORB, the digest folded from the lanes left (R91, R92). -/
theorem exec_to_done {i : Instr} {s t : State} (h : exec i s = .next t) (hp : t.phase = .done) :
    i = .finalize ∧ s.phase = .absorb ∧ t.digest = foldLanes t.toLanes := by
  obtain ⟨_, _, rfl⟩ | ⟨_, _, _, _, ha, rfl⟩ | ⟨rfl, ha, rfl⟩ := exec_next_cases h
  · simp at hp
  · simp [ha] at hp
  · exact ⟨rfl, ha, rfl⟩

/-- Settles O33: in DONE the step can idle, reset, or carry out an INIT, and idling moves no register. -/
theorem digestStaysUntilInitOrReset : Obligations.DigestStaysUntilInitOrReset := by
  intro s t hv h
  obtain ⟨hp, hb⟩ := (digestValid_iff s).mp hv
  obtain ⟨c, i, hc, -, -⟩ | ⟨-, -, rfl⟩ | ⟨p, rest, -, hcyc, hr, rfl⟩ | ⟨p, rest, -, -, -, -, rfl⟩ |
    ⟨p, rest, i, -, hcyc, hr, hcv, hd, he⟩ := step_next_cases h
  · simp [hb] at hc
  · exact .inl ⟨hv, rfl⟩
  · exact .inr ⟨p, rest, hcyc, digestValid_eq_false (by simp), .inl hr⟩
  · exact .inl ⟨hv, rfl⟩
  · obtain ⟨⟨seed, rfl⟩, hv'⟩ := exec_from_done (s := { s with hostCycles := rest }) hp he
    obtain rfl := seed_of_decode_init hd
    exact .inr ⟨p, rest, hcyc, hv', .inr ⟨hr, hcv, hd⟩⟩

/-- Settles O34: a step that ends in DONE, where the state before did not show it, ran a FINALIZE from ABSORB. -/
theorem onlyFinalizeRaisesDigestValid : Obligations.OnlyFinalizeRaisesDigestValid := by
  intro s t hv h hv'
  obtain ⟨hp, -⟩ := (digestValid_iff t).mp hv'
  obtain ⟨c, i, hb, hd, he⟩ | ⟨-, -, rfl⟩ | ⟨p, rest, -, -, -, rfl⟩ | ⟨p, rest, -, -, -, -, rfl⟩ |
    ⟨p, rest, i, hb, hcyc, hr, hcv, hd, he⟩ := step_next_cases h
  · obtain ⟨rfl, ha, hdig⟩ := exec_to_done he hp
    exact ⟨ha, hdig, c, ctl_of_decode_finalize hd, .inl hb⟩
  · simp [hv] at hv'
  · simp at hp
  · exact absurd (hv.symm.trans hv') (by decide)
  · obtain ⟨rfl, ha, hdig⟩ := exec_to_done he hp
    exact ⟨ha, hdig, p.transfer, ctl_of_decode_finalize hd, .inr ⟨hb, p, rest, hcyc, hr, hcv, rfl⟩⟩

/-! ### The registers as a function of seed and stream -/

theorem delivered_nil {ps : List Byte} {h : HashState} (hp : h.pending = packBytes ps) (hl : ps.length < 8) :
    delivered ps [] h = h := by
  simp [delivered, fullWords_short hl, tailBytes_short hl, compressAll, ← hp]

/-- Beats in ABSORB complete and deliver their stream, and touch the HashState alone (R72, R78). -/
theorem execAll_beatCmds (bs : List (BitVec 4 × Wide)) {s : State} {ps : List Byte} (ha : s.phase = .absorb)
    (hp : s.pending = packBytes ps) (hl : ps.length = fill s.totalLength) (hbs : legalBeats bs) :
    execAll (beatCmds bs) s = .next (s.withHash (delivered ps (streamOf bs) s.toHashState)) := by
  induction bs generalizing s ps with
  | nil =>
    have hlt := fill_lt s.totalLength
    simp [beatCmds, streamOf, execAll, delivered_nil hp (by omega)]
  | cons b bs ih =>
    obtain ⟨hb, hbs⟩ := List.forall_mem_cons.mp hbs
    have hfirst : exec (.append b.1 b.2) s =
        .next (s.withHash (delivered ps (beatBytes b.1.toNat b.2) s.toHashState)) := by
      rw [← hashAppend_delivers b.2 hp hl hb]
      exact execAppend_absorb hb ha
    have hrest := ih (s := s.withHash (delivered ps (beatBytes b.1.toNat b.2) s.toHashState)) ha rfl
      (delivered_fill hl) hbs
    rw [State.withHash_withHash, State.withHash_hash, delivered_delivered] at hrest
    simpa [beatCmds, streamOf, execAll, hfirst] using hrest

/-- INIT and beats end in ABSORB with the HashState of the seed and the stream (R29). -/
theorem execAll_init_beatCmds (s : State) (seed : Wide) {bs : List (BitVec 4 × Wide)} (hbs : legalBeats bs) :
    ∃ t, execAll (.init seed :: beatCmds bs) s = .next t ∧ t.phase = .absorb ∧
      t.toHashState = streamState seed (streamOf bs) := by
  refine ⟨_, execAll_beatCmds bs (ps := []) rfl rfl rfl hbs, rfl, ?_⟩
  show delivered [] (streamOf bs) (hashInit seed) = _
  simp [delivered, streamState]

/-- The complete word `i` of a stream (R29: `w_i`). -/
def streamWord (msg : List Byte) (i : Nat) : Word :=
  le64 (msg.getD (8 * i) 0#8) (msg.getD (8 * i + 1) 0#8) (msg.getD (8 * i + 2) 0#8) (msg.getD (8 * i + 3) 0#8)
    (msg.getD (8 * i + 4) 0#8) (msg.getD (8 * i + 5) 0#8) (msg.getD (8 * i + 6) 0#8) (msg.getD (8 * i + 7) 0#8)

/-- The words cut off one by one are the words by index. -/
theorem fullWords_eq_map (msg : List Byte) : fullWords msg = (List.range (msg.length / 8)).map (streamWord msg) := by
  induction h : msg.length using Nat.strong_induction_on generalizing msg with
  | _ n ih =>
    rcases Nat.lt_or_ge msg.length 8 with h8 | h8
    · rw [fullWords_short h8, ← h, Nat.div_eq_of_lt h8]
      rfl
    · obtain ⟨b0, b1, b2, b3, b4, b5, b6, b7, rest, rfl⟩ := eight_of_le h8
      simp only [List.length_cons] at h
      have hq : n / 8 = rest.length / 8 + 1 := by omega
      rw [fullWords, ih rest.length (by omega) rest rfl, hq, List.range_succ_eq_map, List.map_cons, List.map_map]
      rfl

/-- The bytes cut off last are the bytes after the last complete word. -/
theorem tailBytes_eq_drop (msg : List Byte) : tailBytes msg = msg.drop (8 * (msg.length / 8)) := by
  induction h : msg.length using Nat.strong_induction_on generalizing msg with
  | _ n ih =>
    rcases Nat.lt_or_ge msg.length 8 with h8 | h8
    · rw [tailBytes_short h8, ← h, Nat.div_eq_of_lt h8]
      rfl
    · have hd : (msg.drop 8).length = n - 8 := by simp [h]
      rw [tailBytes_eight h8, ih (n - 8) (by omega) _ hd, List.drop_drop]
      congr 1
      omega

theorem compressAll_eq_foldl (ws : List Word) (l : Lanes) :
    compressAll ws l = ws.foldl (fun l w => compress w l) l := by
  induction ws generalizing l with
  | nil => rfl
  | cons w ws ih => exact ih _

/-- The number a byte list is, as the sum of its bytes by their positions. -/
theorem leVal_eq_sum (bs : List Byte) :
    leVal bs = ((List.range bs.length).map fun j => (bs.getD j 0#8).toNat * 2 ^ (8 * j)).sum := by
  induction bs with
  | nil => rfl
  | cons b bs ih =>
    have hshift : ∀ j, (bs.getD j 0#8).toNat * 2 ^ (8 * (j + 1)) = 256 * ((bs.getD j 0#8).toNat * 2 ^ (8 * j)) := by
      intro j
      rw [Nat.mul_succ, Nat.pow_add]
      ring
    rw [leVal_cons, ih, List.length_cons, List.range_succ_eq_map, ← List.sum_map_mul_left]
    simp only [List.map_cons, List.map_map, List.sum_cons, Function.comp_def, Nat.succ_eq_add_one, List.getD_cons_zero,
      List.getD_cons_succ, hshift, Nat.mul_zero, Nat.pow_zero, Nat.mul_one]

/-- A packing of at most eight bytes is the number they are. -/
theorem packBytes_toNat_of_le {bs : List Byte} (h : bs.length ≤ 8) : (packBytes bs).toNat = leVal bs := by
  have hlt := leVal_lt bs
  have hpow : 256 ^ bs.length ≤ 256 ^ 8 := Nat.pow_le_pow_right (by decide) h
  rw [packBytes_toNat, Nat.mod_eq_of_lt (by omega)]

/-- Settles O43: the registers are those of `streamState`, whose words and tail are the ones the rule gives by index. -/
theorem stateOfSeedAndStream : Obligations.StateOfSeedAndStream := by
  intro s seed beats hbs msg byte q words
  obtain ⟨t, ht, hp, hh⟩ := execAll_init_beatCmds s seed hbs
  have hwords : fullWords msg = words := fullWords_eq_map msg
  have htail : (tailBytes msg).length = msg.length % 8 := tailBytes_length msg
  refine ⟨t, ht, hp, ?_, ?_, ?_⟩ <;> rw [hh]
  · show compressAll (fullWords msg) _ = _
    rw [hwords, compressAll_eq_foldl]
  · show (packBytes (tailBytes msg)).toNat = _
    rw [packBytes_toNat_of_le (by omega), leVal_eq_sum, htail, tailBytes_eq_drop]
    simp [byte, q, List.getD_eq_getElem?_getD]
  · exact BitVec.toNat_ofNat _ _

/-! ### The completion of an accepted command -/

/-- Settles O50: short of the latency the edges only count down, and a completed command leaves a ready engine. -/
theorem everyCommandCompletes : Obligations.EveryCommandCompletes := by
  intro L p k ps ha hr
  refine ⟨Nat.le_add_left _ _, fun hlt => ?_, fun heq => ?_⟩
  · have hleft : ps.length ≤ extraCycles L p.transfer k.core.toHashState := Nat.le_of_lt_succ hlt
    rw [tickAll, tick_accepts ha, tickAll_busy L ps rfl hr hleft]
    exact ⟨rfl, by simp [State.digestValid], rfl⟩
  · obtain ⟨-, hb, -⟩ := (accepts_iff p k).mp ha
    rw [tickAll_of_latency ha hr heq, cmdReady_iff]
    exact completed_busy _ hb

end Sys2Proof.Machine
end

section
/-! PROOFS for 20_memory.md: the bus lanes in packing order (R35 to R37), the beat that leaves the state alone (R42), a run
as the fold of the command rules (R43), and the digest under any split of the stream and any past (R38, R94, R108). -/

namespace Sys2Proof.Machine

/-! ### The bus lanes in packing order -/

/-- `le64` is the sum of its bytes by their positions (R35). -/
theorem le64_toNat (b0 b1 b2 b3 b4 b5 b6 b7 : Byte) : (le64 b0 b1 b2 b3 b4 b5 b6 b7).toNat =
    b0.toNat + b1.toNat * 2 ^ 8 + b2.toNat * 2 ^ 16 + b3.toNat * 2 ^ 24 + b4.toNat * 2 ^ 32 + b5.toNat * 2 ^ 40
      + b6.toNat * 2 ^ 48 + b7.toNat * 2 ^ 56 := by
  rw [le64_eq_packBytes, packBytes_toNat_of_le (by simp)]
  simp only [leVal_cons, leVal_nil]
  omega

/-- Lane `i + j` holds byte `j` of the bus from lane `i` on. -/
theorem byteLane_add_toNat (w : Wide) (i j : Nat) :
    (byteLane w (i + j)).toNat = w.toNat / 256 ^ i / 256 ^ j % 256 := by
  rw [byteLane_toNat, Nat.pow_add, Nat.div_div_eq_div_mul]

/-- The 64 bits from lane `i` on are the little-endian word of eight lanes, with no byte swap (R37). -/
theorem extract_eq_le64 (w : Wide) (i : Nat) :
    w.extractLsb' (8 * i) 64 = le64 (byteLane w i) (byteLane w (i + 1)) (byteLane w (i + 2)) (byteLane w (i + 3))
      (byteLane w (i + 4)) (byteLane w (i + 5)) (byteLane w (i + 6)) (byteLane w (i + 7)) := by
  apply BitVec.eq_of_toNat_eq
  have hpow : (2 : Nat) ^ (8 * i) = 256 ^ i := Nat.pow_mul 2 8 i
  rw [le64_toNat, BitVec.extractLsb'_toNat, Nat.shiftRight_eq_div_pow, hpow]
  simp only [byteLane_add_toNat, byteLane_toNat w i]
  omega

/-- Settles O8: the seed halves start at lanes 0 and 8, and the masked operand is the beat. -/
theorem lanesPackLittleEndian : Obligations.LanesPackLittleEndian :=
  ⟨le64_toNat, fun seed => ⟨extract_eq_le64 seed 0, extract_eq_le64 seed 8⟩, fun _ w hn => beat_eq_packBytes hn w,
    by decide, by decide⟩

/-! ### The beat that leaves the state alone -/

theorem beat_zero (w : Wide) : beat 0 w = 0#64 := by
  simp [beat, bytemask]

/-- The zero-length beat leaves the HashState, tidy or not (R75). -/
theorem hashAppend_zero (w : Wide) (h : HashState) : hashAppend 0 w h = h := by
  have hfires : fires (fill h.totalLength) 0 = false := decide_eq_false (Nat.not_le.mpr (fill_lt _))
  simp [hashAppend, hfires, beat_zero, shifted, mergeLo, add64_eq]

/-- A beat of a nonzero count moves the counter: 1 to 15 is not 0 modulo 2^64 (R18). -/
theorem add64_count_ne_self (a : Word) {n : BitVec 4} (hn : n ≠ 0#4) : add64 a (BitVec.ofNat 64 n.toNat) ≠ a := by
  intro h
  have hsum := congrArg BitVec.toNat h
  have hpos : n.toNat ≠ 0 := fun h0 => hn (BitVec.eq_of_toNat_eq h0)
  have hlt := n.isLt
  have ha := a.isLt
  rw [add64_toNat, BitVec.toNat_ofNat] at hsum
  omega

/-- Settles O22: the zero-length beat writes every register back, and any other one moves the counter. -/
theorem onlyTheEmptyBeatIsIdle : Obligations.OnlyTheEmptyBeatIsIdle := by
  intro n w s t h
  obtain ⟨_, hi, -⟩ | ⟨n', w', hi, -, -, rfl⟩ | ⟨hi, -⟩ := exec_next_cases h
  case inr.inl =>
    cases hi
    refine ⟨fun hself => ?_, fun hn => ?_⟩
    · have hlen : add64 s.totalLength (BitVec.ofNat 64 n.toNat) = s.totalLength := by
        rw [← hashAppend_totalLength n.toNat w]
        exact congrArg (fun u : State => u.totalLength) hself
      exact not_not.mp fun hn => add64_count_ne_self _ hn hlen
    · subst hn
      show s.withHash (hashAppend 0 w s.toHashState) = s
      rw [hashAppend_zero, State.withHash_self]
  all_goals cases hi

/-! ### A run as the fold of the command rules -/

theorem ctl_fields_append (n : BitVec 4) : ctlOp (0b10#2 ++ n) = 0b10#2 ∧ ctlNbytes (0b10#2 ++ n) = n := by
  revert n
  decide

/-- A well-formed command is read back from its transfer (R55). -/
theorem decode_encode {i : Instr} (hw : i.wf = true) : decode (encode i) = .ok i := by
  cases i with
  | init seed => exact decode_init_word seed
  | append n w =>
    obtain ⟨hop, hn⟩ := ctl_fields_append n
    have hle : n.toNat ≤ 8 := by simpa [Instr.wf] using hw
    simp [encode, decode, hop, hn, hle]
  | finalize => rfl

/-- The step on the presented transfer of a well-formed command is the command's meaning (R6, R49). -/
theorem step_of_presented_command {i : Instr} (hw : i.wf = true) {s : State} {rest : List Pins} (hb : s.busy = none)
    (hc : s.hostCycles = presenting (encode i) :: rest) : step s = exec i { s with hostCycles := rest } := by
  rw [step_of_presented hb hc rfl rfl]
  exact runTransfer_ok (decode_encode hw) _

/-- Settles O37: each step consumes one presented command and carries it out, and no command looks at the cycles left. -/
theorem runIsTheFoldOfTheCommands : Obligations.RunIsTheFoldOfTheCommands := by
  intro is
  induction is with
  | nil =>
    intro s rest _ _ hc
    obtain rfl : s.hostCycles = rest := hc
    rfl
  | cons i is ih =>
    intro s rest hb hw hc
    obtain ⟨hi, his⟩ := List.forall_mem_cons.mp hw
    have hstep := step_of_presented_command hi hb hc
    rw [exec_hostCycles] at hstep
    rw [execAll, exec_hostCycles]
    cases he : exec i s with
    | next t =>
      rw [he] at hstep
      have hbt : t.busy = none := (exec_frame he).1.trans hb
      exact (core_run_next is.length hstep).trans (ih _ rest hbt his rfl)
    | fault f => cases f
    | refused r =>
      rw [he] at hstep
      exact core_run_refused is.length hstep

/-! ### The digest under any split and any past -/

/-- A fold over a sequence goes on from the state its first part answers. -/
theorem execAll_append_of_next {is : List Instr} {s t : State} (js : List Instr) (h : execAll is s = .next t) :
    execAll (is ++ js) s = execAll js t := by
  induction is generalizing s with
  | nil =>
    cases h
    rfl
  | cons i is ih =>
    rw [execAll] at h
    rw [List.cons_append, execAll]
    cases he : exec i s <;> rw [he] at h
    case next u => exact ih h
    all_goals cases h

/-- INIT, beats and FINALIZE complete from every state, with the SipHash of the stream delivered (R94). -/
theorem execAll_hash_beats (s : State) (seed : Wide) {bs : List (BitVec 4 × Wide)} (hbs : legalBeats bs) :
    ∃ t, execAll (.init seed :: (beatCmds bs ++ [.finalize])) s = .next t ∧ t.phase = .done ∧
      t.digest = sipHash24 seed (streamOf bs) := by
  obtain ⟨u, hu, hp, hh⟩ := execAll_init_beatCmds s seed hbs
  have hlast := execAll_append_of_next [.finalize] hu
  rw [execAll, show exec .finalize u = _ from execFinalize_absorb hp] at hlast
  exact ⟨_, hlast, rfl, congrArg (fun h => foldLanes (finalLanes h)) hh⟩

/-- Settles O45: both digests are the SipHash of the one stream. -/
theorem digestIgnoresChunkingAndInstance : Obligations.DigestIgnoresChunkingAndInstance := by
  intro s₁ s₂ seed b₁ b₂ h₁ h₂ hstream
  obtain ⟨t₁, ht₁, -, hd₁⟩ := execAll_hash_beats s₁ seed h₁
  obtain ⟨t₂, ht₂, -, hd₂⟩ := execAll_hash_beats s₂ seed h₂
  exact ⟨t₁, t₂, ht₁, ht₂, by rw [hd₁, hd₂, hstream]⟩

end Sys2Proof.Machine
end

section
/-! PROOFS for 30_encoding.md: the opcode map (R55) and the encoder against it (R51 to R54), the masked beat (R58), the
commands and pseudo-commands as they are written (R60, R61), and the handshake at a step and at a clock edge (R49, R50). -/

namespace Sys2Proof.Machine

/-! ### Decode and encode -/

/-- Settles O3: the fields of the encoded control word are the command's own. -/
theorem decodeOfEncode : Obligations.DecodeOfEncode := fun _ hw => decode_encode hw

/-- A control word is its two fields (R51). -/
theorem ctlOp_append_ctlNbytes (ctl : Ctl) : ctlOp ctl ++ ctlNbytes ctl = ctl := by
  revert ctl
  decide

/-- Settles O4: in each clause that reads a command, the two fields fix the control word, and INIT and APPEND carry the
operand. -/
theorem encodeOfDecode : Obligations.EncodeOfDecode := by
  intro c i h
  have hctl := ctlOp_append_ctlNbytes c.ctl
  obtain ⟨hop, hn, hd⟩ | ⟨hop, hn, hd⟩ | ⟨hop, hn, hd⟩ | ⟨-, hd⟩ | ⟨-, -, hd⟩ | ⟨-, -, hd⟩ := decode_cases c <;>
    rw [hd] at h <;> cases h
  · rw [hop, hn] at hctl
    exact ⟨rfl, hctl, .inr rfl⟩
  · rw [hop] at hctl
    exact ⟨decide_eq_true hn, hctl, .inr rfl⟩
  · rw [hop, hn] at hctl
    exact ⟨rfl, hctl, .inl rfl⟩

/-! ### The opcode map -/

theorem decode_eq_init {c : Transfer} (hop : ctlOp c.ctl = 0b01#2) (hn : ctlNbytes c.ctl = 0#4) :
    decode c = .ok (.init c.wdata) := by
  simp [decode, hop, hn]

theorem decode_eq_append {c : Transfer} (hop : ctlOp c.ctl = 0b10#2) (hn : (ctlNbytes c.ctl).toNat ≤ 8) :
    decode c = .ok (.append (ctlNbytes c.ctl) c.wdata) := by
  simp [decode, hop, hn]

theorem decode_eq_finalize {c : Transfer} (hop : ctlOp c.ctl = 0b11#2) (hn : ctlNbytes c.ctl = 0#4) :
    decode c = .ok .finalize := by
  simp [decode, hop, hn]

theorem decode_eq_reservedOp {c : Transfer} (hop : ctlOp c.ctl = 0b00#2) : decode c = .error .op := by
  simp [decode, hop]

theorem decode_eq_reservedNbytes {c : Transfer} (hop : ctlOp c.ctl = 0b10#2) (hn : 8 < (ctlNbytes c.ctl).toNat) :
    decode c = .error .nbytes := by
  simp [decode, hop, Nat.not_le.mpr hn]

theorem decode_eq_reservedField {c : Transfer} (hop : ctlOp c.ctl = 0b01#2 ∨ ctlOp c.ctl = 0b11#2)
    (hn : ctlNbytes c.ctl ≠ 0#4) : decode c = .error .field := by
  obtain hop | hop := hop <;> simp [decode, hop, hn]

/-- The fields that R55 gives a command. -/
def LegalFields (op : BitVec 2) (n : BitVec 4) : Prop :=
  (op = 0b01#2 ∧ n = 0#4) ∨ (op = 0b10#2 ∧ n.toNat ≤ 8) ∨ (op = 0b11#2 ∧ n = 0#4)

/-- Whether a transfer is a command is decided by its fields, whatever the operand. -/
theorem decode_toBool_iff (c : Transfer) : (decode c).toBool = true ↔ LegalFields (ctlOp c.ctl) (ctlNbytes c.ctl) := by
  obtain ⟨hop, hn, hd⟩ | ⟨hop, hn, hd⟩ | ⟨hop, hn, hd⟩ | ⟨hop, hd⟩ | ⟨hop, hn, hd⟩ | ⟨hop | hop, hn, hd⟩ :=
    decode_cases c
  case inr.inr.inr.inl => simp [LegalFields, hop, hd, Except.toBool]
  all_goals simp [LegalFields, hop, hn, hd, Except.toBool]

/-- The fields of a command are those of the match and mask rows. -/
theorem legalFields_iff_selects (ctl : Ctl) :
    LegalFields (ctlOp ctl) (ctlNbytes ctl) ↔ ∃ r ∈ opcodeRows, r.selects ctl = true := by
  unfold LegalFields
  revert ctl
  decide

theorem decode_toBool_eq_selects (ctl : Ctl) (w : Wide) :
    (decode ⟨ctl, w⟩).toBool = opcodeRows.any fun r => r.selects ctl := by
  rw [Bool.eq_iff_iff, decode_toBool_iff, List.any_eq_true]
  exact legalFields_iff_selects ctl

/-- Settles O1: the clauses are the decoder's, and a control word is a command exactly when it selects a row, of which
each of the 64 words selects at most one. -/
theorem decodeIsTheOpcodeMap : Obligations.DecodeIsTheOpcodeMap := by
  refine ⟨fun ctl w => ?_, by decide, fun w => ?_⟩
  · exact ⟨decode_eq_init (c := ⟨ctl, w⟩), decode_eq_append (c := ⟨ctl, w⟩), decode_eq_finalize (c := ⟨ctl, w⟩),
      decode_eq_reservedOp (c := ⟨ctl, w⟩), decode_eq_reservedNbytes (c := ⟨ctl, w⟩),
      decode_eq_reservedField (c := ⟨ctl, w⟩), (decode_toBool_iff _).trans (legalFields_iff_selects ctl)⟩
  · simp only [decode_toBool_eq_selects]
    decide

/-- Settles O2: each word falls under one clause of the decoder. -/
theorem writtenOutWordsDecode : Obligations.WrittenOutWordsDecode :=
  ⟨decode_eq_init (by decide) (by decide), decode_eq_append (by decide) (by decide),
    decode_eq_append (by decide) (by decide), decode_eq_finalize (by decide) (by decide),
    decode_eq_reservedNbytes (by decide) (by decide), decode_eq_reservedField (by decide) (by decide),
    decode_eq_reservedOp (by decide)⟩

/-! ### The masked beat -/

theorem bytemask_getLsbD {n : Nat} (hn : n ≤ 8) (i : Nat) : (bytemask n).getLsbD i = decide (i < 8 * n) := by
  have hpow : (256 : Nat) ^ n = 2 ^ (8 * n) := (Nat.pow_mul 2 8 n).symm
  rw [← BitVec.testBit_toNat, bytemask_toNat hn, hpow, Nat.testBit_two_pow_sub_one]

/-- The beat keeps the operand's bits below `8n` and has zeros above (R58). -/
theorem beat_getLsbD {n : Nat} (hn : n ≤ 8) (w : Wide) (i : Nat) :
    (beat n w).getLsbD i = (decide (i < 8 * n) && w.getLsbD i) := by
  by_cases hi : i < 8 * n
  · have h64 : i < 64 := by omega
    simp [beat, bytemask_getLsbD hn, hi, h64]
  · simp [beat, bytemask_getLsbD hn, hi]

/-- Masking the low operand and extending with zeros is masking the operand with the extended mask (R58). -/
theorem beat_setWidth {n : Nat} (hn : n ≤ 8) (w : Wide) :
    (beat n w).setWidth 128 = w &&& (bytemask n).setWidth 128 := by
  apply BitVec.eq_of_getLsbD_eq
  intro i hi
  simp [beat_getLsbD hn, bytemask_getLsbD hn, hi, Bool.and_comm]

/-- Settles O7: the masks by value, the beat bit by bit, and its bytes in packing order. -/
theorem bytemaskAndBeat : Obligations.BytemaskAndBeat :=
  ⟨by decide, fun _ hn => beat_getLsbD hn, fun _ hn => beat_setWidth hn, fun _ hn => beat_eq_packBytes hn⟩

/-! ### Written commands on the port -/

/-- An operand that is the number of a byte list has byte `i` of it on lane `i`, and zeros after the last. -/
theorem byteLane_eq_getD {w : Wide} {bs : List Byte} (h : w.toNat = leVal bs) (i : Nat) :
    byteLane w i = bs.getD i 0#8 := by
  apply BitVec.eq_of_toNat_eq
  rw [byteLane_toNat, h, leVal_byte]

/-- The control word of an APPEND of `n` bytes (R60). -/
theorem append_ctl {n : Nat} (hn : n ≤ 8) : 0b10#2 ++ BitVec.ofNat 4 n = 0x20#6 + BitVec.ofNat 6 n := by
  have key : ∀ m ≤ 8, 0b10#2 ++ BitVec.ofNat 4 m = 0x20#6 + BitVec.ofNat 6 m := by decide
  exact key n hn

/-- Settles O5: the operands driven are the numbers of the byte lists, whose bytes lie on the lanes. -/
theorem commandNotationOnThePort : Obligations.CommandNotationOnThePort := by
  refine ⟨fun seed hs => ⟨rfl, fun i _ => ?_⟩, fun bs hb => ⟨append_ctl hb, fun j _ => ?_⟩, by decide, rfl, by decide,
    by decide⟩
  · exact byteLane_eq_getD (packWide_toNat seed hs.le) i
  · rw [show byteLane (encode (appendCmd bs)).wdata j = bs.getD j 0#8 from
      byteLane_eq_getD (packBytes_wide_toNat bs hb) j]
    split
    · rfl
    · next h => exact List.getD_eq_default _ _ (Nat.le_of_not_lt h)

/-! ### The pseudo-commands -/

/-- The beat that `APPEND <2n hex digits>` drives for at most eight bytes (R60). -/
def beatOf (bs : List Byte) : BitVec 4 × Wide := (BitVec.ofNat 4 bs.length, (packBytes bs).setWidth 128)

theorem beatOf_count {bs : List Byte} (h : bs.length ≤ 8) : (beatOf bs).1.toNat = bs.length := by
  simp only [beatOf, BitVec.toNat_ofNat]
  omega

/-- The beat delivers the bytes it is written with. -/
theorem beatBytes_beatOf {bs : List Byte} (h : bs.length ≤ 8) : beatBytes (beatOf bs).1.toNat (beatOf bs).2 = bs := by
  rw [beatOf_count h]
  exact beatBytes_packBytes bs h

theorem streamOf_cons (b : BitVec 4 × Wide) (beats : List (BitVec 4 × Wide)) :
    streamOf (b :: beats) = beatBytes b.1.toNat b.2 ++ streamOf beats := rfl

/-- The beats `beats` carry the string `bs` as R61 says: legal beats, all but the last of eight bytes. -/
structure Carries (beats : List (BitVec 4 × Wide)) (bs : List Byte) : Prop where
  legal : legalBeats beats
  stream : streamOf beats = bs
  full : ∀ b ∈ beats.dropLast, b.1 = 8#4

theorem carries_nil : Carries [] [] := ⟨by simp, rfl, by simp⟩

/-- One beat of at most eight bytes carries its bytes. -/
theorem carries_beatOf {bs : List Byte} (h : bs.length ≤ 8) : Carries [beatOf bs] bs where
  legal := List.forall_mem_singleton.mpr (by rwa [beatOf_count h])
  stream := by simpa [streamOf] using beatBytes_beatOf h
  full := by simp

/-- Eight bytes more in front are one full beat more. -/
theorem Carries.cons_eight {beats : List (BitVec 4 × Wide)} {rest ws : List Byte} (h : Carries beats rest)
    (hw : ws.length = 8) : Carries (beatOf ws :: beats) (ws ++ rest) where
  legal := List.forall_mem_cons.mpr ⟨by rw [beatOf_count hw.le, hw], h.legal⟩
  stream := by rw [streamOf_cons, beatBytes_beatOf hw.le, h.stream]
  full := by
    intro b hb
    cases beats with
    | nil => simp at hb
    | cons b' beats =>
      obtain rfl | hb := List.mem_cons.mp hb
      · simp [beatOf, hw]
      · exact h.full b hb

/-- The beats of a string, the empty one having none, and their number (R61). -/
theorem appendsBeats_carries (bs : List Byte) : ∃ beats, appendsBeats bs = beatCmds beats ∧ Carries beats bs ∧
    beats.length = bs.length / 8 + (if bs.length % 8 = 0 then 0 else 1) := by
  induction bs using appendsBeats.induct with
  | case1 b0 b1 b2 b3 b4 b5 b6 b7 rest ih =>
    obtain ⟨beats, hcmds, hcar, hlen⟩ := ih
    refine ⟨beatOf [b0, b1, b2, b3, b4, b5, b6, b7] :: beats, ?_, hcar.cons_eight rfl, ?_⟩
    · rw [appendsBeats, hcmds]
      rfl
    · have hdiv : (rest.length + 8) / 8 = rest.length / 8 + 1 := by omega
      have hmod : (rest.length + 8) % 8 = rest.length % 8 := Nat.add_mod_right _ _
      simp only [List.length_cons, hlen, hdiv, hmod]
      omega
  | case2 => exact ⟨[], rfl, carries_nil, rfl⟩
  | case3 b bs hshort =>
    have hlt : (b :: bs).length < 8 := by
      by_contra hge
      obtain ⟨b0, b1, b2, b3, b4, b5, b6, b7, rest, heq⟩ := eight_of_le (Nat.le_of_not_lt hge)
      injection heq with hb hbs
      exact hshort b1 b2 b3 b4 b5 b6 b7 rest hbs
    refine ⟨[beatOf (b :: bs)], ?_, carries_beatOf hlt.le, ?_⟩
    · rw [appendsBeats]
      · rfl
      · exact hshort
    · rw [Nat.div_eq_of_lt hlt, Nat.mod_eq_of_lt hlt]
      rfl

/-- Settles O6: the zero-length beat for the empty string, and otherwise full beats and one for what is left. -/
theorem appendsExpansion : Obligations.AppendsExpansion := by
  intro bs
  by_cases hbs : bs = []
  · subst hbs
    obtain ⟨hlegal, hstream, hfull⟩ := carries_beatOf (bs := []) (by simp)
    exact ⟨[beatOf []], rfl, hlegal, hstream, hfull, rfl⟩
  · obtain ⟨beats, hcmds, ⟨hlegal, hstream, hfull⟩, hlen⟩ := appendsBeats_carries bs
    refine ⟨beats, ?_, hlegal, hstream, hfull, ?_⟩
    · rw [appendsCmds, if_neg hbs, hcmds]
    · rw [if_neg (by simpa using hbs), hlen]

/-- Settles O44: `HASH` is INIT, beats that carry the message, and FINALIZE. -/
theorem hashComputesSipHash : Obligations.HashComputesSipHash := by
  intro s seed msg _
  obtain ⟨beats, hcmds, hlegal, hstream, -, -⟩ := appendsExpansion msg
  obtain ⟨t, ht, hp, hd⟩ := execAll_hash_beats s (packWide seed) hlegal
  exact ⟨t, by rw [hashCmds, hcmds]; exact ht, hp, by rw [hd, hstream]⟩

/-! ### The handshake -/

/-- With no pins driven the ready engine holds its state (R109). -/
theorem step_of_nothing_driven {s : State} (hb : s.busy = none) (hc : s.hostCycles = []) : step s = .next s := by
  simp [step, hb, hc]

/-- A cycle without a command is consumed and changes nothing else (R49). -/
theorem step_of_no_command {s : State} {p : Pins} {rest : List Pins} (hb : s.busy = none)
    (hc : s.hostCycles = p :: rest) (hr : p.rst = false) (hv : p.cmdValid = false) :
    step s = .next { s with hostCycles := rest } := by
  simp [step, hb, hc, readyEdge, hr, hv]

/-- A cycle with `rst` resets the engine, whatever the other pins (R110). -/
theorem step_of_reset {s : State} {p : Pins} {rest : List Pins} (hb : s.busy = none)
    (hc : s.hostCycles = p :: rest) (hr : p.rst = true) :
    step s = .next ({ s with hostCycles := rest } : State).applyReset := by
  simp [step, hb, hc, readyEdge, hr]

/-- Settles O36: one clause for each kind of cycle without a command. -/
theorem stepWithoutACommand : Obligations.StepWithoutACommand := by
  refine ⟨fun s => step_of_nothing_driven, fun s p rest => step_of_no_command, fun s p rest hb hc hr => ?_⟩
  exact ⟨_, step_of_reset hb hc hr, rfl, rfl, rfl, rfl, digestValid_eq_false (by simp)⟩

/-- A ready engine holds at an edge with neither a command nor a reset (R49). -/
theorem tick_of_no_command {L : Config.Latency} {p : Pins} {k : Clocked} (hb : k.core.busy = none)
    (hr : p.rst = false) (hv : p.cmdValid = false) : tick L p k = k := by
  simp [tick, hr, hb, hv]

/-- Settles O47: the accepting edge puts the command in progress, and the edge without one holds. -/
theorem acceptanceAtAnEdge : Obligations.AcceptanceAtAnEdge := by
  intro L p k
  refine ⟨fun ⟨hv, hready, hr⟩ => ?_, fun hv hready hr => ?_⟩
  · have ha : k.accepts p = true := (accepts_iff p k).mpr ⟨hv, (cmdReady_iff _).mp hready, hr⟩
    rw [tick_accepts ha]
    exact ⟨rfl, rfl⟩
  · exact tick_of_no_command ((cmdReady_iff _).mp hready) hr hv

/-- What an edge without a reset does to a busy engine is a function of the engine alone (R50). -/
theorem tick_congr_of_busy {L : Config.Latency} {p q : Pins} {k : Clocked} {c : Transfer} (hb : k.core.busy = some c)
    (hp : p.rst = false) (hq : q.rst = false) : tick L p k = tick L q k := by
  simp [tick, hb, hp, hq]

/-- Settles O48: `cmd_ready` is 0 only while a command is in progress, and then an edge does not look at the pins. -/
theorem busyEngineIgnoresThePins : Obligations.BusyEngineIgnoresThePins := by
  intro L p q k hready hp hq
  cases hb : k.core.busy with
  | none => simp [State.cmdReady, hb] at hready
  | some c => exact tick_congr_of_busy hb hp hq

end Sys2Proof.Machine
end

section
/-! PROOFS for 40_init.md: the seed bits in the lanes (R63), and INIT as a fresh start from every state (R65, R66), after a
refused command too (R100). -/

namespace Sys2Proof.Machine

/-- What INIT leaves, whatever the state before it: the HashState of the seed, ABSORB, `busy` as it was (R62, R65). -/
theorem exec_init_next {seed : Wide} {s t : State} (h : exec (.init seed) s = .next t) :
    t.toHashState = hashInit seed ∧ t.phase = .absorb ∧ t.busy = s.busy := by
  obtain ⟨_, hi, rfl⟩ | ⟨_, _, hi, -⟩ | ⟨hi, -⟩ := exec_next_cases h <;> cases hi
  exact ⟨rfl, rfl, rfl⟩

/-! ### The seed bits in the lanes -/

/-- A single bit of the bus is either below the slice from `o` on and lost there, or is bit `i - o` of the slice. -/
theorem extract_bit (o : Nat) {i : Nat} (hi : i < 128) :
    (1#128 <<< i).extractLsb' o 64 = if i < o then 0#64 else 1#64 <<< (i - o) := by
  apply BitVec.eq_of_getLsbD_eq
  intro j hj
  simp only [← BitVec.twoPow_eq, BitVec.getLsbD_extractLsb', BitVec.getLsbD_twoPow, hi, hj, decide_true, Bool.true_and]
  split
  · have hne : i ≠ o + j := by omega
    simp [hne]
  · have hiff : i = o + j ↔ i - o < 64 ∧ i - o = j := by omega
    simp [hiff]

/-- Flipping seed bit `i` flips bit `i` of `k0`, and nothing when `i` is 64 or more (R59). -/
theorem seedK0_flip (seed : Wide) {i : Nat} (hi : i < 128) :
    seedK0 (seed ^^^ (1#128 <<< i)) = seedK0 seed ^^^ (1#64 <<< i) := by
  simp [seedK0, BitVec.extractLsb'_xor, extract_bit 0 hi]

/-- Flipping seed bit `i` flips bit `i - 64` of `k1`, and nothing when `i` is below 64 (R59). -/
theorem seedK1_flip (seed : Wide) {i : Nat} (hi : i < 128) :
    seedK1 (seed ^^^ (1#128 <<< i)) = seedK1 seed ^^^ (if i < 64 then 0#64 else 1#64 <<< (i - 64)) := by
  rw [seedK1, BitVec.extractLsb'_xor, extract_bit 64 hi, seedK1]

/-- Settles O17: `k0` enters `v0` and `v2` by XOR, `k1` enters `v1` and `v3`, and the flipped bit lies in one of the two. -/
theorem seedBitEntersTwoLanes : Obligations.SeedBitEntersTwoLanes := by
  intro seed i s t u hi ht hu
  obtain ⟨ht, -, -⟩ := exec_init_next ht
  obtain ⟨hu, -, -⟩ := exec_init_next hu
  rw [ht, hu]
  by_cases h : i < 64
  · ext1 <;> simp [seedK0_flip seed hi, seedK1_flip seed hi, h, BitVec.xor_assoc]
  · have hk0 : 1#64 <<< i = 0#64 := BitVec.shiftLeft_eq_zero (Nat.le_of_not_lt h)
    ext1 <;> simp [seedK0_flip seed hi, seedK1_flip seed hi, h, hk0, BitVec.xor_assoc]

/-! ### INIT from every state -/

/-- Outside DONE the outputs show `busy` and nothing else (R25). -/
theorem outputs_of_not_done {s : State} (h : s.phase ≠ .done) : s.outputs = ⟨s.busy.isNone, false, none⟩ := by
  have hv := digestValid_eq_false h
  rw [State.outputs, digestOut_eq_none hv, hv, State.cmdReady]

/-- Settles O16: the two states left agree in all that INIT determines, and in ABSORB no output shows more. -/
theorem initForgetsTheOldState : Obligations.InitForgetsTheOldState := by
  intro seed s₁ s₂ hb
  refine ⟨_, _, execInit_eq seed s₁, execInit_eq seed s₂, rfl, rfl, ?_⟩
  rw [outputs_of_not_done (by simp), outputs_of_not_done (by simp)]
  exact congrArg (Outputs.mk ·.isNone false none) hb

/-! ### INIT after any command -/

/-- A ready engine, in whatever phase and with whatever registers, accepts an INIT and has carried it out when its latency
has passed (R65, R120). -/
theorem tickAll_init {L : Config.Latency} {q : Pins} {k : Clocked} {qs : List Pins} (ha : k.accepts q = true)
    (hctl : q.ctl = 0x10#6) (hr : ∀ r ∈ qs, r.rst = false) (hl : qs.length = L.init + 1) :
    exec (.init q.wdata) k.core = .next (tickAll L (q :: qs) k).core := by
  have hd : decode q.transfer = .ok (.init q.wdata) := by rw [Pins.transfer, hctl, decode_init_word]
  have hlat : qs.length = latency L q.transfer k.core.toHashState := by rw [hl, latency, extraCycles, hd]
  obtain ⟨t, ht⟩ : ∃ t, exec (.init q.wdata) k.core = .next t := ⟨_, execInit_eq _ _⟩
  rw [tickAll_of_latency ha hr hlat, completed_of_next ((runTransfer_ok hd _).trans ht), ht]

/-- Settles O52: the first command, refused or not, leaves a ready engine, and that is all an INIT needs. -/
theorem initRecoversFromMisuse : Obligations.InitRecoversFromMisuse := by
  intro L p q k ps qs seed ha hr hps hq hv hctl hw hqs
  obtain ⟨-, hb, -⟩ := (accepts_iff p k).mp ha
  have hready : (completed p.transfer k.core).busy = none := completed_busy _ hb
  have hacc : Clocked.accepts q ⟨completed p.transfer k.core, 0⟩ = true := (accepts_iff _ _).mpr ⟨hv, hready, hq⟩
  have hinit := tickAll_init hacc hctl (fun r h => hr r (by simp [h])) hqs
  obtain ⟨hhash, hphase, hbusy⟩ := exec_init_next hinit
  rw [tickAll_append, tickAll_of_latency ha (fun r h => hr r (by simp [h])) hps, ← hw]
  exact ⟨hhash, hphase, (cmdReady_iff _).mpr (hbusy.trans hready), digestValid_eq_false (by simp [hphase])⟩

end Sys2Proof.Machine
end

section
/-! PROOFS for 41_append.md: absorbing a word (R71), one beat and its frame (R72), the zero-length beat (R75), the pending
buffer in bytes (R73, R74, R79), the ignored lanes (R76), and any split of a stream against the source's `append` (R77,
R78). -/

namespace Sys2Proof.Machine

/-! ### Absorbing a word -/

/-- Settles O14: the two rounds are written out in the definition of the round unit. -/
theorem compressAbsorbsAWord : Obligations.CompressAbsorbsAWord :=
  ⟨fun _ _ _ _ _ => rfl, by decide⟩

/-! ### One beat and its frame -/

/-- A beat that completes was legal, was taken in ABSORB, and wrote the HashState alone (R72). -/
theorem exec_append_next {n : BitVec 4} {w : Wide} {s t : State} (h : exec (.append n w) s = .next t) :
    n.toNat ≤ 8 ∧ s.phase = .absorb ∧ t = s.withHash (hashAppend n.toNat w s.toHashState) := by
  obtain ⟨_, hi, -⟩ | ⟨_, _, hi, hn, ha, ht⟩ | ⟨hi, -⟩ := exec_next_cases h <;> cases hi
  exact ⟨hn, ha, ht⟩

/-- The lanes change only in the beat that completes a word (R72). -/
theorem hashAppend_toLanes (n : Nat) (w : Wide) (h : HashState) :
    (hashAppend n w h).toLanes =
      if 8 ≤ fill h.totalLength + n then
        compress (mergeLo h.pending (shifted (fill h.totalLength) (beat n w))) h.toLanes
      else h.toLanes := by
  by_cases hf : 8 ≤ fill h.totalLength + n <;> simp [hashAppend, fires, hf]

theorem hashAppend_pending (n : Nat) (w : Wide) (h : HashState) :
    (hashAppend n w h).pending =
      if 8 ≤ fill h.totalLength + n then mergeHi (shifted (fill h.totalLength) (beat n w))
      else mergeLo h.pending (shifted (fill h.totalLength) (beat n w)) := by
  by_cases hf : 8 ≤ fill h.totalLength + n <;> simp [hashAppend, fires, hf]

/-- Settles O18: the beat answers its rule's HashState, and every other field is the old one. -/
theorem appendCompletes : Obligations.AppendCompletes := by
  refine ⟨fun n w s hn ha => ?_, fun s ha hs => ⟨_, execAppend_absorb (by decide) ha, ?_⟩⟩
  · refine ⟨_, execAppend_absorb hn ha, ?_, hashAppend_toLanes n.toNat w s.toHashState,
      hashAppend_pending n.toNat w s.toHashState, ha, rfl, rfl, rfl⟩
    show (hashAppend n.toNat w s.toHashState).totalLength = _
    rw [hashAppend_totalLength, add64_eq, BitVec.ofNat_toNat]
  · rw [State.withHash_hash, hs]
    decide

/-- Settles O21: outside ABSORB the phase table refuses, and in ABSORB every register is written back. -/
theorem zeroLengthBeatChangesNothing : Obligations.ZeroLengthBeatChangesNothing := by
  intro w s
  obtain ⟨-, happend, -, -⟩ := phaseTransitionTable
  obtain ⟨huninit, -, hdone⟩ := happend 0#4 w s (by decide)
  refine ⟨fun ha => ?_, huninit, hdone⟩
  have hrun : exec (.append 0#4 w) s = .next (s.withHash (hashAppend 0 w s.toHashState)) :=
    execAppend_absorb (by decide) ha
  rw [hrun, hashAppend_zero, State.withHash_self]

/-! ### The pending buffer in bytes -/

/-- The bytes `pending` holds, the first one lowest (R17). -/
def HashState.heldBytes (h : HashState) : List Byte :=
  (List.range (fill h.totalLength)).map fun j => h.pending.extractLsb' (8 * j) 8

@[simp] theorem HashState.heldBytes_length (h : HashState) : h.heldBytes.length = fill h.totalLength := by
  simp [heldBytes]

/-- A tidy `pending` holds its bytes and nothing more (R20). -/
theorem HashState.Tidy.pending_eq {h : HashState} (ht : h.Tidy) : h.pending = packBytes h.heldBytes :=
  tidy_eq_packBytes ht

/-- A tidy `pending` is 0 at level 0 (R74 (e)). -/
theorem HashState.Tidy.pending_eq_zero {h : HashState} (ht : h.Tidy) (hf : fill h.totalLength = 0) :
    h.pending = 0#64 := by
  simpa [HashState.Tidy, hf] using ht

/-- At most seven bytes are held, so byte 7 of a tidy `pending` is zero (R79). -/
theorem HashState.Tidy.top_byte {h : HashState} (ht : h.Tidy) : h.pending.extractLsb' 56 8 = 0#8 := by
  have hk := fill_lt h.totalLength
  have hsplit : 56 = 8 * fill h.totalLength + (56 - 8 * fill h.totalLength) := by omega
  have hshift : h.pending >>> 56 = 0#64 := by
    rw [hsplit, BitVec.shiftRight_add, show h.pending >>> (8 * fill h.totalLength) = 0#64 from ht,
      BitVec.zero_ushiftRight]
  apply BitVec.eq_of_toNat_eq
  rw [BitVec.extractLsb'_toNat, ← BitVec.toNat_ushiftRight, hshift]
  rfl

/-- The fill level counts the beat's bytes modulo 8 (R73). -/
theorem hashAppend_fill (n : Nat) (w : Wide) (h : HashState) :
    fill (hashAppend n w h).totalLength = (fill h.totalLength + n) % 8 := by
  rw [hashAppend_totalLength, fill_add]

/-- A beat on a tidy HashState delivers its bytes after the ones held (R72, R73). -/
theorem HashState.Tidy.hashAppend_eq {h : HashState} (ht : h.Tidy) {n : Nat} (hn : n ≤ 8) (w : Wide) :
    hashAppend n w h = delivered h.heldBytes (beatBytes n w) h :=
  hashAppend_delivers w ht.pending_eq h.heldBytes_length hn

/-- Fewer than eight bytes in all: none is absorbed. -/
theorem delivered_of_short {ps qs : List Byte} (h : HashState) (hlen : ps.length + qs.length < 8) :
    (delivered ps qs h).toLanes = h.toLanes ∧ (delivered ps qs h).pending = packBytes (ps ++ qs) := by
  have hshort : (ps ++ qs).length < 8 := by simpa using hlen
  simp only [delivered, fullWords_short hshort, tailBytes_short hshort, compressAll, and_self]

/-- Eight to fifteen bytes in all: the first eight are the word absorbed, and the others remain. -/
theorem delivered_of_word {ps qs : List Byte} (h : HashState) (hps : ps.length < 8) (hqs : qs.length ≤ 8)
    (hlen : 8 ≤ ps.length + qs.length) :
    (delivered ps qs h).toLanes = compress (packBytes (ps ++ qs.take (8 - ps.length))) h.toLanes ∧
    (delivered ps qs h).pending = packBytes (qs.drop (8 - ps.length)) := by
  have hword : 8 ≤ (ps ++ qs).length := by simpa using hlen
  have htake : (ps ++ qs).take 8 = ps ++ qs.take (8 - ps.length) := by
    rw [List.take_append, List.take_of_length_le hps.le]
  have hdrop : (ps ++ qs).drop 8 = qs.drop (8 - ps.length) := by
    rw [List.drop_append, List.drop_of_length_le hps.le, List.nil_append]
  have hrest : (qs.drop (8 - ps.length)).length < 8 := by
    rw [List.length_drop]
    omega
  simp only [delivered, fullWords_eight hword, tailBytes_eight hword, htake, hdrop, fullWords_short hrest,
    tailBytes_short hrest, compressAll, and_self]

/-- Settles O19: the beat delivers its bytes after the ones held, with one word to absorb or none; INIT clears the
counter and FINALIZE keeps it. -/
theorem pendingMachineTable : Obligations.PendingMachineTable := by
  refine ⟨fun n w s t ht h => ?_, fun seed s t h => ?_, fun s t h => ?_⟩
  · obtain ⟨hn, -, rfl⟩ := exec_append_next h
    have hk := fill_lt s.totalLength
    have hheld := s.toHashState.heldBytes_length
    refine ⟨hashAppend_fill n.toNat w s.toHashState, fun hf => ?_, fun hf => ?_⟩
    · obtain ⟨hlanes, hpending⟩ := delivered_of_word (ps := s.toHashState.heldBytes) (qs := beatBytes n.toNat w)
        s.toHashState (by omega) (by simpa using hn) (by simpa using hf)
      rw [← ht.hashAppend_eq hn, hheld] at hlanes hpending
      refine ⟨hlanes, hpending, ?_⟩
      rw [List.length_drop, beatBytes_length]
      omega
    · have hshort := delivered_of_short (ps := s.toHashState.heldBytes) (qs := beatBytes n.toNat w)
        s.toHashState (by simpa using hf)
      rwa [← ht.hashAppend_eq hn] at hshort
  · obtain ⟨hh, -, -⟩ := exec_init_next h
    rw [hh]
    rfl
  · have hcount : t.totalLength.toNat = s.totalLength.toNat := totalLengthCountsBytes .finalize s t h
    rw [fill_eq, fill_eq, hcount]

/-- The mask of a full beat keeps all 64 bits (R58). -/
theorem beat_full (w : Wide) : beat 8 w = w.extractLsb' 0 64 := by
  have hmask : bytemask 8 = BitVec.allOnes 64 := by decide
  rw [beat, hmask, BitVec.and_allOnes]

/-- A full beat at level 0 is the word absorbed, and nothing remains (R74). -/
theorem hashAppend_full_at_boundary {h : HashState} (w : Wide) (hp : h.pending = 0#64)
    (hf : fill h.totalLength = 0) :
    (hashAppend 8 w h).toLanes = compress (w.extractLsb' 0 64) h.toLanes ∧ (hashAppend 8 w h).pending = 0#64 := by
  have hword := delivered_of_word (ps := []) (qs := beatBytes 8 w) h (by decide) (by simp) (by simp)
  rw [← hashAppend_delivers w (ps := []) hp hf.symm le_rfl] at hword
  simpa [List.take_of_length_le, List.drop_of_length_le, ← beat_eq_packBytes, beat_full, packBytes] using hword

/-- Settles O20: eight bytes more leave the level modulo 8, and at level 0 nothing is held before them. -/
theorem fullBeatAtWordBoundary : Obligations.FullBeatAtWordBoundary := by
  refine ⟨fun s ht hf => ht.pending_eq_zero hf,
    fun w s ha ht => ⟨_, execAppend_absorb (by decide) ha, ?_, fun hf => ?_⟩⟩
  · have hk := fill_lt s.totalLength
    have hlevel : fill (hashAppend 8 w s.toHashState).totalLength = (fill s.totalLength + 8) % 8 :=
      hashAppend_fill 8 w s.toHashState
    exact hlevel.trans (by omega)
  · exact hashAppend_full_at_boundary w (ht.pending_eq_zero hf) hf

/-- Settles O24: the HashState after the beat is tidy at the level `k'`. -/
theorem appendKeepsPendingTidy : Obligations.AppendKeepsPendingTidy := by
  intro n w s t ht h k'
  obtain ⟨hn, -, rfl⟩ := exec_append_next h
  have hlevel : fill (hashAppend n.toNat w s.toHashState).totalLength = k' := hashAppend_fill n.toNat w s.toHashState
  have htidy := hashAppend_tidy w ht hn
  refine ⟨hlevel, ?_, htidy.top_byte⟩
  rw [← hlevel]
  exact htidy

/-! ### The ignored lanes -/

/-- The masked beat is a function of the lanes below the count (R68, R76). -/
theorem beat_congr {n : Nat} {w w' : Wide} (hn : n ≤ 8) (h : ∀ j < n, byteLane w j = byteLane w' j) :
    beat n w = beat n w' := by
  have hbytes : beatBytes n w = beatBytes n w' := List.map_congr_left fun j hj => h j (List.mem_range.mp hj)
  rw [beat_eq_packBytes hn, beat_eq_packBytes hn, hbytes]

/-- APPEND reads the operand through the masked beat alone (R72). -/
theorem exec_append_congr {n : BitVec 4} {w w' : Wide} (h : beat n.toNat w = beat n.toNat w') (s : State) :
    exec (.append n w) s = exec (.append n w') s := by
  simp only [exec, execAppend, hashAppend, h]

/-- At level 0, with nothing pending, a beat of fewer than eight bytes becomes `pending` (R72). -/
theorem hashAppend_pending_at_boundary {h : HashState} {n : Nat} (w : Wide) (hp : h.pending = 0#64)
    (hf : fill h.totalLength = 0) (hn : n < 8) : (hashAppend n w h).pending = beat n w := by
  obtain ⟨-, hpending⟩ := delivered_of_short (ps := []) (qs := beatBytes n w) h (by simpa using hn)
  rw [hashAppend_delivers w (ps := []) hp hf.symm hn.le, hpending, List.nil_append, beat_eq_packBytes hn.le]

/-- Settles O23: operands that agree on the lanes below the count have the same beat; the example masks lane 7 off. -/
theorem lanesAboveTheCountAreIgnored : Obligations.LanesAboveTheCountAreIgnored := by
  refine ⟨fun n w w' s hn h => exec_append_congr (beat_congr hn h) s,
    fun s ha hp hf w hw => ⟨_, execAppend_absorb (by decide) ha, ?_⟩⟩
  have hpending : (hashAppend 7 w s.toHashState).pending = beat 7 w :=
    hashAppend_pending_at_boundary w hp hf (by decide)
  refine hpending.trans ?_
  obtain hw | hw := hw <;> rw [beat, hw] <;> decide

/-! ### Any split of a stream -/

/-- On a tidy HashState the source's `append` delivers its bytes after the ones held (R77). -/
theorem HashState.Tidy.appendRef_eq {h : HashState} (ht : h.Tidy) (bs : List Byte) :
    appendRef bs h = delivered h.heldBytes bs h :=
  appendRef_delivers bs ht.pending_eq h.heldBytes_length

/-- Settles O42: the beats and the source's `append` deliver the same bytes after the ones held. -/
theorem chunkInvariance : Obligations.ChunkInvariance := by
  refine ⟨fun s beats ha ht hbs => ?_, fun s n w ha ht hn => ?_⟩
  · refine ⟨_, execAll_beatCmds beats ha ht.pending_eq s.toHashState.heldBytes_length hbs, ?_, ha, rfl, rfl, rfl⟩
    rw [State.withHash_hash, ht.appendRef_eq]
  · refine ⟨_, execAppend_absorb hn ha, ?_⟩
    rw [State.withHash_hash, ht.hashAppend_eq hn, ht.appendRef_eq]

end Sys2Proof.Machine
end

section
/-! PROOFS for 42_mixing_round.md: the wrapping addition (R85), the rotation (R86), one round (R80, R81), its repetitions
(R83, R84), and the inverse of the round (R87). -/

namespace Sys2Proof.Machine

/-! ### Addition and rotation -/

/-- Settles O9: `add64` is the library's addition of 64-bit words. -/
theorem additionWraps : Obligations.AdditionWraps :=
  ⟨add64_toNat, by decide, by decide, fun x => by rw [add64_eq, BitVec.add_zero]⟩

/-- A rotation by 32 swaps the halves (R86). -/
theorem rotl_half (x : Word) : rotl x 32 = x.extractLsb' 0 32 ++ x.extractLsb' 32 32 := by
  apply BitVec.eq_of_getLsbD_eq
  intro i hi
  rw [BitVec.getLsbD_append]
  by_cases hlow : i < 32
  · simp [rotl, hlow, Nat.add_comm]
  · have hhigh : x.getLsbD (32 + i) = false := BitVec.getLsbD_of_ge _ _ (by omega)
    have hi' : i - 32 < 32 := by omega
    simp [rotl, hlow, hhigh, hi, BitVec.getLsbD_eq_getElem (show i - 32 < 64 by omega), hi']

/-- Settles O10: a bit below `64 - b` comes from the left shift, one from there on from the right shift. -/
theorem rotationMovesEveryBit : Obligations.RotationMovesEveryBit :=
  ⟨fun x _ _ hb hb' hi => rotl_getLsbD x hb hb' hi, fun _ _ _ _ => rfl, rotl_half,
    by decide, by decide, by decide, by decide⟩

/-- Rotating by the rest of the 64 places undoes a rotation (R86). -/
theorem rotl_rotl_cancel (x : Word) {b c : Nat} (hb : 0 < b) (hc : 0 < c) (hbc : b + c = 64) :
    rotl (rotl x b) c = x := by
  apply BitVec.eq_of_getLsbD_eq
  intro i hi
  have hback : ((i + b) % 64 + c) % 64 = i := by omega
  calc (rotl (rotl x b) c).getLsbD i
      = (rotl (rotl x b) c).getLsbD (((i + b) % 64 + c) % 64) := by rw [hback]
    _ = (rotl x b).getLsbD ((i + b) % 64) := rotl_getLsbD _ hc (by omega) (Nat.mod_lt _ (by decide))
    _ = x.getLsbD i := rotl_getLsbD _ hb (by omega) hi

/-! ### The round and its repetitions -/

/-- Settles O11: the model's operations are the library's, in the order of R80. -/
theorem roundInSingleAssignmentForm : Obligations.RoundInSingleAssignmentForm := by
  refine ⟨fun a0 a1 a2 a3 => ?_, by decide⟩
  simp only [sipRound, add64_eq, rotl_eq_rotateLeft, Nat.reduceLT]

theorem rounds_eq_iterate (n : Nat) : rounds n = sipRound^[n] := by
  induction n with
  | zero => rfl
  | succ n ih =>
    funext l
    exact congrFun ih (sipRound l)

/-- Settles O12: `rounds` is the library's iteration, and four rounds are two and two. -/
theorem roundsIterateTheRound : Obligations.RoundsIterateTheRound :=
  ⟨fun n l => congrFun (rounds_eq_iterate n) l, rounds_add 2 2, fun l => ⟨roundUnit_false l, roundUnit_true l⟩,
    by decide, by decide⟩

/-! ### The inverse of the round -/

/-- The operations of R80 undone, the last one first: an addition by a subtraction, a rotation by the rest of the 64
places, an exclusive or by itself. -/
def sipUnround (l : Lanes) : Lanes :=
  let w2 := rotl l.v2 32
  let t1 := rotl (l.v1 ^^^ w2) 47
  let s2 := w2 - t1
  let t3 := rotl (l.v3 ^^^ l.v0) 43
  let s0 := rotl (l.v0 - t3) 32
  let a3 := rotl (t3 ^^^ s2) 48
  let a1 := rotl (t1 ^^^ s0) 51
  ⟨s0 - a1, a1, s2 - a3, a3⟩

theorem sipUnround_sipRound : Function.LeftInverse sipUnround sipRound := by
  intro l
  simp [sipRound, sipUnround, add64_eq, rotl_rotl_cancel]

theorem sipRound_sipUnround : Function.RightInverse sipUnround sipRound := by
  intro l
  simp [sipRound, sipUnround, add64_eq, rotl_rotl_cancel]

theorem sipRound_bijective : Function.Bijective sipRound :=
  Function.bijective_iff_has_inverse.mpr ⟨sipUnround, sipUnround_sipRound, sipRound_sipUnround⟩

/-- Settles O13: `sipUnround` inverts the round, and a repeated bijection is a bijection. -/
theorem roundIsABijection : Obligations.RoundIsABijection := by
  refine ⟨by decide, sipRound_bijective, fun n => ?_⟩
  rw [rounds_eq_iterate]
  exact sipRound_bijective.iterate n

end Sys2Proof.Machine
end

section
/-! PROOFS for 43_finalize.md: the final word (R89), FINALIZE and its frame (R91), what the digest reads (R90, R94), and
the two digests the source prints. -/

namespace Sys2Proof.Machine

/-! ### The final word in bytes -/

/-- The length byte stands above bytes 0 to 6 and leaves them as they are, whatever `pending` holds (R89). -/
theorem finalWord_low_byte (h : HashState) {j : Nat} (hj : j < 7) :
    (finalWord h).extractLsb' (8 * j) 8 = h.pending.extractLsb' (8 * j) 8 := by
  ext i hi
  have hbelow : 8 * j + i < 56 := by omega
  simp [finalWord, hbelow]

/-- The top byte is that of `pending` with the length merged in (R89). -/
theorem finalWord_top_byte (h : HashState) :
    (finalWord h).extractLsb' 56 8 = h.pending.extractLsb' 56 8 ||| h.totalLength.extractLsb' 0 8 := by
  ext i hi
  have htop : 56 + i < 64 := by omega
  have hword : i < 64 := by omega
  simp [finalWord, htop, hword, hi]

/-- The top byte of a tidy `pending` is zero, so that of the final word is the length modulo 256 (R79, R89). -/
theorem HashState.Tidy.finalWord_top_eq_length {h : HashState} (ht : h.Tidy) :
    (finalWord h).extractLsb' 56 8 = h.totalLength.extractLsb' 0 8 := by
  rw [finalWord_top_byte, ht.top_byte, BitVec.zero_or]

/-- Settles O27: the formula is the definition, the invariant empties byte 7 of `pending`, and the examples do not read
the lanes. -/
theorem finalWordBytes : Obligations.FinalWordBytes :=
  ⟨fun _ => rfl, fun h ht => ⟨ht.finalWord_top_eq_length, fun _ hj => finalWord_low_byte h hj⟩,
    fun _ => by simp [finalWord]⟩

/-! ### What FINALIZE answers, and what the digest reads -/

/-- FINALIZE reads the lanes, `pending` and the counter modulo 256 (R90). -/
theorem finalLanes_congr {h₁ h₂ : HashState} (hl : h₁.toLanes = h₂.toLanes) (hp : h₁.pending = h₂.pending)
    (hc : h₁.totalLength.toNat % 256 = h₂.totalLength.toNat % 256) : finalLanes h₁ = finalLanes h₂ := by
  have heq : h₂ = { h₁ with totalLength := h₂.totalLength } := by
    rw [hl, hp]
  rw [heq, finalLanes_counter hc]

/-- Settles O28: both digests are the fold of the same final lanes. -/
theorem digestReadsLengthModulo256 : Obligations.DigestReadsLengthModulo256 := by
  intro s₁ s₂ ha₁ ha₂ hl hp hc
  exact ⟨_, _, execFinalize_absorb ha₁, execFinalize_absorb ha₂, congrArg foldLanes (finalLanes_congr hl hp hc)⟩

/-- In DONE a ready engine shows its digest (R25). -/
theorem digestOut_of_done {s : State} (hp : s.phase = .done) (hb : s.busy = none) :
    s.digestValid = true ∧ s.digestOut = some s.digest := by
  have hvalid := (digestValid_iff s).mpr ⟨hp, hb⟩
  exact ⟨hvalid, if_pos hvalid⟩

/-- Settles O26: FINALIZE answers the state of its rule, whose phase DONE shows the digest on a ready engine. -/
theorem finalizeCompletes : Obligations.FinalizeCompletes := by
  refine ⟨fun s ha => ⟨_, execFinalize_absorb ha, rfl, rfl, rfl, rfl, rfl, rfl, rfl, fun hb => digestOut_of_done rfl hb⟩,
    fun s ha hs => ⟨_, execFinalize_absorb ha, ?_⟩⟩
  show foldLanes (finalLanes s.toHashState) = _ ∧ finalLanes s.toHashState = _
  rw [hs]
  decide

/-! ### The digests the source prints -/

/-- Fewer than eight bytes are all pending, and no word has been absorbed (R29). -/
theorem streamState_short (seed : Wide) {msg : List Byte} (h : msg.length < 8) :
    streamState seed msg = ⟨(hashInit seed).toLanes, packBytes msg, BitVec.ofNat 64 msg.length⟩ := by
  simp only [streamState, fullWords_short h, tailBytes_short h, compressAll]

/-- Settles O46: each sequence is INIT, beats and FINALIZE, so its digest is the SipHash of the bytes delivered: none,
and the byte 00. -/
theorem sourceVectors : Obligations.SourceVectors := by
  intro s
  obtain ⟨t, ht, -, hd⟩ :=
    execAll_hash_beats s 0x0f0e0d0c0b0a09080706050403020100#128 (bs := []) (by simp)
  obtain ⟨u, hu, -, he⟩ :=
    execAll_hash_beats s 0x0f0e0d0c0b0a09080706050403020100#128 (bs := [(1#4, 0#128)]) (by simp)
  rw [sipHash24, streamState_short _ (by decide)] at hd he
  exact ⟨⟨t, ht, hd.trans (by decide)⟩, ⟨u, hu, he.trans (by decide)⟩⟩

end Sys2Proof.Machine
end

section
/-! PROOFS for 70_reset_and_hazards.md: an edge with `rst` (R110, R112). -/

namespace Sys2Proof.Machine

/-- Reset wins over the pins and over a command in progress (R110, R112). -/
theorem tick_of_reset {L : Config.Latency} {p : Pins} {k : Clocked} (hr : p.rst = true) :
    tick L p k = ⟨k.core.applyReset, 0⟩ := by
  simp [tick, hr]

/-- No command is accepted at an edge with `rst` (R49, R110). -/
theorem accepts_of_reset {p : Pins} (k : Clocked) (hr : p.rst = true) : k.accepts p = false := by
  rw [Bool.eq_false_iff, ne_eq, accepts_iff]
  simp [hr]

/-- Settles O49: the edge leaves the state of a reset, whose phase UNINIT shows no digest. -/
theorem resetWinsAtEveryEdge : Obligations.ResetWinsAtEveryEdge := by
  intro L p k hr
  rw [tick_of_reset hr]
  exact ⟨State.applyReset_phase _, State.applyReset_busy _, (cmdReady_iff _).mpr (State.applyReset_busy _),
    digestValid_eq_false (by simp), accepts_of_reset k hr, State.applyReset_hostCycles _⟩

end Sys2Proof.Machine
end
